-- ==== Sys2Proof/Word.lean ====
section
/-! DEFINITION. The words of the machine: every value is unsigned (R7), bit 0 is the least significant bit (R6). -/

namespace Sys2Proof

/-- 8 bits: `V[i]`, `kk`, the timers, `rnd`, a byte of memory (R7). -/
abbrev Byte := BitVec 8

/-- 16 bits: `pc`, `I`, stack entries, `latched_opcode` (R7). -/
abbrev Word := BitVec 16

/-- The 12-bit address field `nnn` (R71). -/
abbrev Addr12 := BitVec 12

/-- A 4-bit slice of an opcode (R9). -/
abbrev Nibble := BitVec 4

/-- A register number, 0 to 15 (R21, R73). -/
abbrev Reg := Fin 16

/-- VF, the register that is also the flag (R22). -/
abbrev regF : Reg := 15

end Sys2Proof
end

