-- ==== Sys2Proof/Syntax.lean ====
section
/-! DEFINITION. The instructions: one constructor for each of the 38 rows of spec/opcode_table.json, in the table's
order. A field named `ign` holds the bits of a word that its format marks `-` (R72): no meaning reads it. It is kept so
that a word and its instruction determine each other (log entry 9). -/

namespace Sys2Proof

inductive Instr where
  /-- `0x0nn0` (R75, R191); `ign` is `op[11:4]`. -/
  | clearScreen (ign : Byte)
  /-- `0x0nnE` (R75, R120); `ign` is `op[11:4]`. The table's `return`. -/
  | ret (ign : Byte)
  /-- `0x1nnn` (R121). -/
  | jump (nnn : Addr12)
  /-- `0x2nnn` (R122). -/
  | call (nnn : Addr12)
  /-- `0x3xkk` (R123). -/
  | skipEqImm (x : Reg) (kk : Byte)
  /-- `0x4xkk` (R124). -/
  | skipNeImm (x : Reg) (kk : Byte)
  /-- `0x5xyN` (R125); `ign` is `op[3:0]`. -/
  | skipEqReg (x y : Reg) (ign : Nibble)
  /-- `0x6xkk` (R142). -/
  | loadImm (x : Reg) (kk : Byte)
  /-- `0x7xkk` (R143). -/
  | addImm (x : Reg) (kk : Byte)
  /-- `0x8xy0` (R144). -/
  | move (x y : Reg)
  /-- `0x8xy1` (R145). -/
  | orReg (x y : Reg)
  /-- `0x8xy2` (R146). -/
  | andReg (x y : Reg)
  /-- `0x8xy3` (R147). -/
  | xorReg (x y : Reg)
  /-- `0x8xy4` (R148). -/
  | addReg (x y : Reg)
  /-- `0x8xy5` (R149). -/
  | subReg (x y : Reg)
  /-- `0x8xy6` (R150); the meaning ignores `y`. -/
  | shr (x y : Reg)
  /-- `0x8xy7` (R151). -/
  | subnReg (x y : Reg)
  /-- `0x8xyE` (R152); the meaning ignores `y`. -/
  | shl (x y : Reg)
  /-- `0x9xyN` (R126); `ign` is `op[3:0]`. -/
  | skipNeReg (x y : Reg) (ign : Nibble)
  /-- `0xAnnn` (R170). -/
  | setIndex (nnn : Addr12)
  /-- `0xBnnn` (R127). -/
  | jumpOffset (nnn : Addr12)
  /-- `0xCxkk` (R153). -/
  | random (x : Reg) (kk : Byte)
  /-- `0xDxyn` (R192); `n` is an unsigned count, 0 to 15 (R73). -/
  | draw (x y : Reg) (n : Fin 16)
  /-- `0xExyE` (R77, R210); `ign` is `op[7:4]`. -/
  | skipKey (x : Reg) (ign : Nibble)
  /-- `0xExy1` (R77, R211); `ign` is `op[7:4]`. -/
  | skipNkey (x : Reg) (ign : Nibble)
  /-- `0xFx07` (R213). -/
  | getDelay (x : Reg)
  /-- `0xFx0A` (R212). -/
  | waitKey (x : Reg)
  /-- `0xFx15` (R214). -/
  | setDelay (x : Reg)
  /-- `0xFx18` (R215). -/
  | setSound (x : Reg)
  /-- `0xFx1E` (R171). -/
  | addIndex (x : Reg)
  /-- `0xFx29` (R172). -/
  | glyphAddr (x : Reg)
  /-- `0xFx33` (R173). -/
  | bcdStore (x : Reg)
  /-- `0xFx55` (R174). -/
  | regDump (x : Reg)
  /-- `0xFx65` (R175). -/
  | regLoad (x : Reg)
  /-- The no-op of top nibble 0x0 (R75, R108): `ign` is `op[11:4]`, `s4` the unassigned low nibble. -/
  | nopSys (ign : Byte) (s4 : Nibble)
  /-- The no-op of top nibble 0x8 (R76, R108): `x`, `y` and `s4` are the three low nibbles, all ignored. -/
  | nopAlu (x y : Reg) (s4 : Nibble)
  /-- The no-op of top nibble 0xE (R77, R108). -/
  | nopKey (x : Reg) (ign : Nibble) (s4 : Nibble)
  /-- The no-op of top nibble 0xF (R78, R108): `s8` is the unassigned low byte. -/
  | nopMisc (x : Reg) (s8 : Byte)
  deriving DecidableEq, Repr

end Sys2Proof
end

