-- ==== Sys2Proof/WellFormed.lean ====
section
/-! DEFINITION. Which instruction terms stand for a word. Every operand range but one is in the operand's type (R71,
R73); what is left to check is that the sub-code a no-op carries is an UNASSIGNED one (R80). -/

namespace Sys2Proof

/-- The low nibbles of top 0x0 that reach the no-op: all but clear-screen's and return's (R75). -/
def unassignedSys (s4 : Nibble) : Bool := s4 != 0x0 && s4 != 0xE

/-- The low nibbles of top 0x8 that reach the no-op: 0x8 to 0xD and 0xF (R76). -/
def unassignedAlu (s4 : Nibble) : Bool := decide (0x8 ≤ s4) && s4 != 0xE

/-- The low nibbles of top 0xE that reach the no-op: all but the two key skips' (R77). -/
def unassignedKey (s4 : Nibble) : Bool := s4 != 0x1 && s4 != 0xE

/-- The nine low bytes of top 0xF that name a handler (R78). -/
def assignedMisc : List Byte := [0x07, 0x0A, 0x15, 0x18, 0x1E, 0x29, 0x33, 0x55, 0x65]

/-- The 247 low bytes of top 0xF that reach the no-op (R78). -/
def unassignedMisc (s8 : Byte) : Bool := !assignedMisc.contains s8

/-- The term is the instruction of some word (R80). -/
def Instr.wellFormed : Instr → Bool
  | .nopSys _ s4 => unassignedSys s4
  | .nopAlu _ _ s4 => unassignedAlu s4
  | .nopKey _ _ s4 => unassignedKey s4
  | .nopMisc _ s8 => unassignedMisc s8
  | .clearScreen _ | .ret _ | .jump _ | .call _ | .skipEqImm _ _ | .skipNeImm _ _ | .skipEqReg _ _ _ => true
  | .loadImm _ _ | .addImm _ _ | .move _ _ | .orReg _ _ | .andReg _ _ | .xorReg _ _ | .addReg _ _ => true
  | .subReg _ _ | .shr _ _ | .subnReg _ _ | .shl _ _ | .skipNeReg _ _ _ | .setIndex _ | .jumpOffset _ => true
  | .random _ _ | .draw _ _ _ | .skipKey _ _ | .skipNkey _ _ | .getDelay _ | .waitKey _ | .setDelay _ => true
  | .setSound _ | .addIndex _ | .glyphAddr _ | .bcdStore _ | .regDump _ | .regLoad _ => true

end Sys2Proof
end

