-- ==== Sys2Proof/Decode.lean ====
section
/-! DEFINITION. The decoder (R70 to R81) and, after it, the encoder, each from the tables of 30_encoding.md. The opcode
numbers the source does not give are the spec's own assignment (decision D5, log entry 1: UNVERIFIED, unsafe). -/

namespace Sys2Proof

/-! ### Fields of an opcode (R71) -/

/-- The register number a nibble names (R73). -/
def regOfNibble (b : Nibble) : Reg := ⟨b.toNat, b.isLt⟩

/-- `t = op[15:12]`. -/
def fieldT (op : Word) : Nibble := op.extractLsb' 12 4

/-- `nnn = op[11:0]`. -/
def fieldNnn (op : Word) : Addr12 := op.extractLsb' 0 12

/-- `x = op[11:8]`. -/
def fieldX (op : Word) : Reg := regOfNibble (op.extractLsb' 8 4)

/-- `y = op[7:4]`. -/
def fieldY (op : Word) : Reg := regOfNibble (op.extractLsb' 4 4)

/-- `kk = op[7:0]`, which is also `s8`. -/
def fieldKk (op : Word) : Byte := op.extractLsb' 0 8

/-- `s4 = op[3:0]`. -/
def fieldS4 (op : Word) : Nibble := op.extractLsb' 0 4

/-- `n = op[3:0]` as a count. -/
def fieldN (op : Word) : Fin 16 := ⟨(op.extractLsb' 0 4).toNat, (op.extractLsb' 0 4).isLt⟩

/-- `op[11:4]`, which format `Z` ignores. -/
def fieldMid (op : Word) : Byte := op.extractLsb' 4 8

/-- `op[7:4]` as plain bits, which format `XS4` ignores. -/
def fieldB4 (op : Word) : Nibble := op.extractLsb' 4 4

/-! ### Second-level dispatch -/

/-- Top nibble 0x0: on `op[3:0]` (R75). -/
def decodeTop0 (op : Word) : Instr :=
  match (fieldS4 op).toNat with
  | 0x0 => .clearScreen (fieldMid op)
  | 0xE => .ret (fieldMid op)
  | _ => .nopSys (fieldMid op) (fieldS4 op)

/-- Top nibble 0x8: on `op[3:0]` (R76). -/
def decodeTop8 (op : Word) : Instr :=
  match (fieldS4 op).toNat with
  | 0x0 => .move (fieldX op) (fieldY op)
  | 0x1 => .orReg (fieldX op) (fieldY op)
  | 0x2 => .andReg (fieldX op) (fieldY op)
  | 0x3 => .xorReg (fieldX op) (fieldY op)
  | 0x4 => .addReg (fieldX op) (fieldY op)
  | 0x5 => .subReg (fieldX op) (fieldY op)
  | 0x6 => .shr (fieldX op) (fieldY op)
  | 0x7 => .subnReg (fieldX op) (fieldY op)
  | 0xE => .shl (fieldX op) (fieldY op)
  | _ => .nopAlu (fieldX op) (fieldY op) (fieldS4 op)

/-- Top nibble 0xE: on `op[3:0]` (R77). -/
def decodeTopE (op : Word) : Instr :=
  match (fieldS4 op).toNat with
  | 0xE => .skipKey (fieldX op) (fieldB4 op)
  | 0x1 => .skipNkey (fieldX op) (fieldB4 op)
  | _ => .nopKey (fieldX op) (fieldB4 op) (fieldS4 op)

/-- Top nibble 0xF: on the whole low byte (R78). -/
def decodeTopF (op : Word) : Instr :=
  match (fieldKk op).toNat with
  | 0x07 => .getDelay (fieldX op)
  | 0x0A => .waitKey (fieldX op)
  | 0x15 => .setDelay (fieldX op)
  | 0x18 => .setSound (fieldX op)
  | 0x1E => .addIndex (fieldX op)
  | 0x29 => .glyphAddr (fieldX op)
  | 0x33 => .bcdStore (fieldX op)
  | 0x55 => .regDump (fieldX op)
  | 0x65 => .regLoad (fieldX op)
  | _ => .nopMisc (fieldX op) (fieldKk op)

/-! ### The whole decode -/

/-- `decode(op)` of R79: total, and a function of the word alone (R79, R103). The last arm is top nibble 0xF, the
only value of four bits that is left. -/
def decodeWord (op : Word) : Instr :=
  match (fieldT op).toNat with
  | 0x0 => decodeTop0 op
  | 0x1 => .jump (fieldNnn op)
  | 0x2 => .call (fieldNnn op)
  | 0x3 => .skipEqImm (fieldX op) (fieldKk op)
  | 0x4 => .skipNeImm (fieldX op) (fieldKk op)
  | 0x5 => .skipEqReg (fieldX op) (fieldY op) (fieldS4 op)
  | 0x6 => .loadImm (fieldX op) (fieldKk op)
  | 0x7 => .addImm (fieldX op) (fieldKk op)
  | 0x8 => decodeTop8 op
  | 0x9 => .skipNeReg (fieldX op) (fieldY op) (fieldS4 op)
  | 0xA => .setIndex (fieldNnn op)
  | 0xB => .jumpOffset (fieldNnn op)
  | 0xC => .random (fieldX op) (fieldKk op)
  | 0xD => .draw (fieldX op) (fieldY op) (fieldN op)
  | 0xE => decodeTopE op
  | _ => decodeTopF op

/-- Big-endian assembly of a fetched word: the byte at the lower address is bits 15:8 (R52, R101). -/
def wordOfBytes (hi lo : Byte) : Word := hi ++ lo

/-- The byte at the lower address (R52). -/
def highByte (w : Word) : Byte := w.extractLsb' 8 8

/-- The byte at the next address (R52). -/
def lowByte (w : Word) : Byte := w.extractLsb' 0 8

/-- Why a sequence of bytes has no instruction at its front. -/
inductive DecodeError where
  /-- Fewer than the two bytes every instruction has (R70). Safe: the fetch always supplies two bytes (R101). -/
  | truncated
  deriving DecidableEq, Repr

/-- The instruction at the front of a sequence of bytes, and the bytes after it: always exactly two are consumed (R70). -/
def decodeBytes : List Byte → Except DecodeError (Instr × List Byte)
  | hi :: lo :: rest => .ok (decodeWord (wordOfBytes hi lo), rest)
  | [_] => .error .truncated
  | [] => .error .truncated

/-- The bytes of an instruction of `nbits` bits, in the order the hardware stores them: every instruction is one
16-bit word (R70), whose bits above `nbits` are 0. -/
def tableWordBytes (nbits w : Nat) : List Byte :=
  let op : Word := BitVec.ofNat 16 (w % 2 ^ nbits)
  [highByte op, lowByte op]

/-- The host's view of the decoder: the instruction read from a word numbered as spec/opcode_table.json numbers it. -/
def decodeTableWord (nbits w : Nat) : Option Instr :=
  match decodeBytes (tableWordBytes nbits w) with
  | .ok (i, _) => some i
  | .error _ => none

/-! ### The encoder: the layouts of R72 with the numbers of R74 to R78 -/

/-- The bits of a register field. -/
def nibbleOfReg (r : Reg) : Nibble := BitVec.ofNat 4 r.val

/-- Format `Z`: `0000 ---- ---- ssss`. -/
def formatZ (mid : Byte) (s : Nibble) : Word := 0x0#4 ++ mid ++ s

/-- Format `A`: `tttt nnnn nnnn nnnn`. -/
def formatA (t : Nibble) (nnn : Addr12) : Word := t ++ nnn

/-- Format `XK`: `tttt xxxx kkkk kkkk`; with `t = 0xF` it is format `XS8`. -/
def formatXK (t : Nibble) (x : Reg) (kk : Byte) : Word := t ++ nibbleOfReg x ++ kk

/-- Formats `XY` (the last nibble ignored), `XYS` and `XYN`: three nibbles after the top one. -/
def formatXYS (t : Nibble) (x y : Reg) (s : Nibble) : Word := t ++ nibbleOfReg x ++ nibbleOfReg y ++ s

/-- Format `XS4`: `1110 xxxx ---- ssss`. -/
def formatXS4 (x : Reg) (ign s : Nibble) : Word := 0xE#4 ++ nibbleOfReg x ++ ign ++ s

/-- The word of an instruction. -/
def encode : Instr → Word
  | .clearScreen ign => formatZ ign 0x0
  | .ret ign => formatZ ign 0xE
  | .jump nnn => formatA 0x1 nnn
  | .call nnn => formatA 0x2 nnn
  | .skipEqImm x kk => formatXK 0x3 x kk
  | .skipNeImm x kk => formatXK 0x4 x kk
  | .skipEqReg x y ign => formatXYS 0x5 x y ign
  | .loadImm x kk => formatXK 0x6 x kk
  | .addImm x kk => formatXK 0x7 x kk
  | .move x y => formatXYS 0x8 x y 0x0
  | .orReg x y => formatXYS 0x8 x y 0x1
  | .andReg x y => formatXYS 0x8 x y 0x2
  | .xorReg x y => formatXYS 0x8 x y 0x3
  | .addReg x y => formatXYS 0x8 x y 0x4
  | .subReg x y => formatXYS 0x8 x y 0x5
  | .shr x y => formatXYS 0x8 x y 0x6
  | .subnReg x y => formatXYS 0x8 x y 0x7
  | .shl x y => formatXYS 0x8 x y 0xE
  | .skipNeReg x y ign => formatXYS 0x9 x y ign
  | .setIndex nnn => formatA 0xA nnn
  | .jumpOffset nnn => formatA 0xB nnn
  | .random x kk => formatXK 0xC x kk
  | .draw x y n => formatXYS 0xD x y (BitVec.ofNat 4 n.val)
  | .skipKey x ign => formatXS4 x ign 0xE
  | .skipNkey x ign => formatXS4 x ign 0x1
  | .getDelay x => formatXK 0xF x 0x07
  | .waitKey x => formatXK 0xF x 0x0A
  | .setDelay x => formatXK 0xF x 0x15
  | .setSound x => formatXK 0xF x 0x18
  | .addIndex x => formatXK 0xF x 0x1E
  | .glyphAddr x => formatXK 0xF x 0x29
  | .bcdStore x => formatXK 0xF x 0x33
  | .regDump x => formatXK 0xF x 0x55
  | .regLoad x => formatXK 0xF x 0x65
  | .nopSys ign s4 => formatZ ign s4
  | .nopAlu x y s4 => formatXYS 0x8 x y s4
  | .nopKey x ign s4 => formatXS4 x ign s4
  | .nopMisc x s8 => formatXK 0xF x s8

end Sys2Proof
end

