-- ==== Sys2Proof/Config.lean ====
section
/-! DEFINITION. The implementation parameters of R5, and the free value the spec leaves open. -/

namespace Sys2Proof.Config

/-- `MEM_SIZE`: addresses 0x000 to 0xFFF (R5, R50). -/
abbrev memSize : Nat := 4096

/-- `STACK_DEPTH` (R5, R25). -/
abbrev stackDepth : Nat := 16

/-- `GLYPH_BASE`, the address of glyph 0 (R5, R54). -/
abbrev glyphBase : Nat := 0x050

/-- `PROGRAM_BASE`, the reset value of `pc` (R5, R252). -/
abbrev programBase : Word := 0x200

/-- `PROGRAM_MAX`, the longest image `load` takes (R5, R253). -/
abbrev programMax : Nat := 3584

/-- The reference wiring of the `tick` input: asserted on every cycle (R5, R105, decision D2).
DESIGN CHOICE, unsafe: it is the value of `tick` in a cycle for which the host's schedule says nothing (log entry 4). -/
abbrev referenceTick : Bool := true

/-- The free draw of the random handler's input in cycle `n`, for a cycle whose `rnd` the host's schedule does
not give (R153, decision D3: `any value`). It has no body, so nothing can be proved of a value of it.
DESIGN CHOICE, safe (log entry 3). -/
opaque freeRnd : Nat → Byte

/-- The glyphs 0 to 7 of the default `GLYPH_ROM` (R251). -/
def defaultGlyphsLow : Vector (Vector Byte 5) 8 :=
  #v[#v[0xF0, 0x90, 0x90, 0x90, 0xF0],
     #v[0x20, 0x60, 0x20, 0x20, 0x70],
     #v[0xF0, 0x10, 0xF0, 0x80, 0xF0],
     #v[0xF0, 0x10, 0xF0, 0x10, 0xF0],
     #v[0x90, 0x90, 0xF0, 0x10, 0x10],
     #v[0xF0, 0x80, 0xF0, 0x10, 0xF0],
     #v[0xF0, 0x80, 0xF0, 0x90, 0xF0],
     #v[0xF0, 0x10, 0x20, 0x40, 0x40]]

/-- The glyphs 8 to F of the default `GLYPH_ROM` (R251). -/
def defaultGlyphsHigh : Vector (Vector Byte 5) 8 :=
  #v[#v[0xF0, 0x90, 0xF0, 0x90, 0xF0],
     #v[0xF0, 0x90, 0xF0, 0x10, 0xF0],
     #v[0xF0, 0x90, 0xF0, 0x90, 0x90],
     #v[0xE0, 0x90, 0xE0, 0x90, 0xE0],
     #v[0xF0, 0x80, 0x80, 0x80, 0xF0],
     #v[0xE0, 0x90, 0x90, 0x90, 0xE0],
     #v[0xF0, 0x80, 0xF0, 0x80, 0xF0],
     #v[0xF0, 0x80, 0xF0, 0x80, 0x80]]

/-- The default of the parameter `GLYPH_ROM`: 16 glyphs of 5 bytes, glyph `d` at `0x050 + 5*d` (R251, decision D4).
UNVERIFIED, unsafe: the spec marks these bytes general knowledge; the machine holds its own `GLYPH_ROM` in
`Memory.glyphRom`, and only the reset state takes this one (log entry 2). -/
def defaultGlyphRom : Vector (Vector Byte 5) 16 := defaultGlyphsLow ++ defaultGlyphsHigh

end Sys2Proof.Config
end

