-- ==== Sys2Proof/Machine/State.lean ====
section
/-! DEFINITION. The state of the core (10_state.md R20), its faults, the reasons a step can stop, and the reset state. -/

namespace Sys2Proof.Machine

/-- The fault kinds of R230, "a closed enumeration". A fault is STATE on this hardware: the faulting cycle ends in a
next state whose `fault` field holds the kind (R235), so no step of this model answers `Host.Outcome.fault`. Every kind
is safe: the spec raises it where the source leaves the behaviour undefined (decision D6). -/
inductive Fault where
  /-- Raised by call with `sp = 16` (R231). Safe. -/
  | stackOverflow
  /-- Raised by return with `sp = 0` (R232). Safe. -/
  | stackUnderflow
  /-- Raised by the fetch stage with `pc >= 0xFFF` (R233). Safe. -/
  | fetchOutOfRange
  /-- Raised by skip-key and skip-nkey with `V[x] > 0xF` (R234). Safe. -/
  | keyIndexOutOfRange
  deriving DecidableEq, Repr

/-- The fault status of R31: `none`, or `faulted(kind, fault_pc)`. -/
inductive FaultStatus where
  | none
  | faulted (kind : Fault) (faultPc : Word)
  deriving DecidableEq, Repr

/-- Why the model has no answer. -/
inductive Refusal where
  /-- An instruction without a meaning, by its mnemonic. Raised by no arm: every instruction has its meaning. Safe. -/
  | notModelled (mnemonic : String)
  /-- Raised by `State.loadImage`, never by a step: an image over 3584 bytes is refused and no run starts (R253). Safe. -/
  | imageTooLong
  deriving DecidableEq, Repr

/-- What the host supplies with one cycle (R33, R110, R111): the `tick` and `rnd` of that cycle, and the key levels it
sets after that cycle and before the next. -/
structure CycleInput where
  tick : Bool
  rnd : Byte
  keysAfter : Vector Bool 16
  deriving DecidableEq, Repr

/-- The 4096 bytes of memory (R29, R50): the parameter `GLYPH_ROM` that `initialize` installs (R251), and the bytes
that differ from the reset content, by strictly rising address. -/
structure Memory where
  glyphRom : Vector (Vector Byte 5) 16
  cells : List Host.Cell
  deriving DecidableEq, Repr

/-- The 64 x 32 framebuffer, `true` = lit: 32 rows, row 0 first, of 64 cells, column 0 leftmost (R30). -/
abbrev Framebuffer := Vector (Vector Bool 64) 32

/-- A framebuffer with every cell unlit (R250). -/
def blankFramebuffer : Framebuffer := Vector.replicate 32 (Vector.replicate 64 false)

/-- The architectural state of R20, under the spec's names, and the model's two own fields at the end. -/
structure State where
  /-- `V[0..15]` (R21); `V[15]` is VF (R22). -/
  V : Vector Byte 16
  /-- The index register, stored unmasked (R23). -/
  I : Word
  /-- The program counter (R24). -/
  pc : Word
  /-- The call stack's entries (R25). -/
  stack : Vector Word 16
  /-- How many entries of the stack are in use, 0 to 16 (R25). -/
  sp : Fin 17
  /-- `latched_opcode` (R26). -/
  latchedOpcode : Word
  /-- `delay_timer` (R27). -/
  delayTimer : Byte
  /-- `sound_timer` (R27). -/
  soundTimer : Byte
  /-- `key_state[0..15]`, `true` = pressed (R30). -/
  keyState : Vector Bool 16
  /-- The framebuffer (R30). -/
  fb : Framebuffer
  /-- Memory (R29). -/
  memory : Memory
  /-- The fault status (R31). -/
  fault : FaultStatus
  /-- The model's own: the host's decided inputs, the coming cycle's first (R33, R111; log entry 5). -/
  inputs : List CycleInput
  /-- The model's own: the number of cycles run, the index of the free draws of `rnd` (log entry 3). -/
  cycle : Nat
  deriving DecidableEq, Repr

/-- The machine right after `initialize` (R250), with the default `GLYPH_ROM` of R251 (log entry 2) and no host input
decided (log entry 5). -/
def State.reset : State where
  V := Vector.replicate 16 0
  I := 0
  pc := Config.programBase
  stack := Vector.replicate 16 0
  sp := 0
  latchedOpcode := 0
  delayTimer := 0
  soundTimer := 0
  keyState := Vector.replicate 16 false
  fb := blankFramebuffer
  memory := { glyphRom := Config.defaultGlyphRom, cells := [] }
  fault := .none
  inputs := []
  cycle := 0

end Sys2Proof.Machine
end

