-- ==== Sys2Proof/Machine/Ops.lean ====
section
/-! DEFINITION. The named operations over registers, memory, framebuffer, stack and timers (R8), and taking a fault
(R235). Every read and write of a piece of state goes through one of these. -/

namespace Sys2Proof.Machine

/-! ### General and special registers -/

/-- `V[r]` (R8, R21). -/
def State.readV (s : State) (r : Reg) : Byte := s.V[r.val]

/-- `V[r] <- v` (R8, R21): no register is hardwired. -/
def State.writeV (s : State) (r : Reg) (v : Byte) : State := { s with V := s.V.set r.val v }

/-- `I <- w` (R23). -/
def State.setI (s : State) (w : Word) : State := { s with I := w }

/-- `pc <- w` (R24): the register is 16 bits wide, and nothing masks it to 12. -/
def State.setPc (s : State) (w : Word) : State := { s with pc := w }

/-- `pc <- (pc + 2) mod 2^16` when `c` holds: a taken skip (R102, R123). -/
def State.skipIf (s : State) (c : Bool) : State := { s with pc := if c then s.pc + 2 else s.pc }

/-- `delay_timer <- v` (R27). -/
def State.setDelayTimer (s : State) (v : Byte) : State := { s with delayTimer := v }

/-- `sound_timer <- v` (R27). -/
def State.setSoundTimer (s : State) (v : Byte) : State := { s with soundTimer := v }

/-- `fb <- f` (R30). -/
def State.setFb (s : State) (f : Framebuffer) : State := { s with fb := f }

/-! ### Memory (20_memory.md) -/

/-- What an address that no entry lists reads as: the reset content, `GLYPH_ROM` at 0x050 to 0x09F, glyph `d` at
`0x050 + 5*d`, and 0 elsewhere (R29, R54, R251). -/
def Memory.initialByte (m : Memory) (a : Nat) : Byte :=
  if h : Config.glyphBase ≤ a ∧ a < Config.glyphBase + 80 then
    (m.glyphRom[(a - Config.glyphBase) / 5]'(by omega))[(a - Config.glyphBase) % 5]'(by omega)
  else 0

/-- The first entry for `a` in a list of cells. -/
def lookupCell (a : Nat) : List Host.Cell → Option Byte
  | [] => none
  | c :: rest => if c.1 = a then some c.2 else lookupCell a rest

/-- Insert an entry before the first one at a higher address. -/
def insertCell (a : Nat) (v : Byte) : List Host.Cell → List Host.Cell
  | [] => [(a, v)]
  | c :: rest => if a < c.1 then (a, v) :: c :: rest else c :: insertCell a v rest

/-- Take out every entry for `a`. -/
def eraseCell (a : Nat) (cells : List Host.Cell) : List Host.Cell := cells.filter fun c => c.1 != a

/-- `MemRead(a, 1)` (R8). -/
def Memory.read (m : Memory) (a : Nat) : Byte := (lookupCell a m.cells).getD (m.initialByte a)

/-- `MemWrite(a, 1, v)` (R8, R58): a byte that now equals its reset content is listed no more. An address of 0x1000 or
above does not exist; no rule forms one (R55), and nothing is written there (log entry 10). -/
def Memory.write (m : Memory) (a : Nat) (v : Byte) : Memory :=
  if a < Config.memSize then
    { m with cells := if v = m.initialByte a then eraseCell a m.cells else insertCell a v (eraseCell a m.cells) }
  else m

/-- Byte `j` of the sequence goes to `a + j`, in ascending order (R53, R253). -/
def Memory.writeBytes (m : Memory) (a : Nat) : List Byte → Memory
  | [] => m
  | b :: rest => (m.write a b).writeBytes (a + 1) rest

/-- Addresses of a list of cells rise strictly, from above `lo` (`none`: from anywhere). -/
def cellsRise : Option Nat → List Host.Cell → Bool
  | _, [] => true
  | lo, c :: rest => (match lo with | none => true | some l => decide (l < c.1)) && cellsRise (some c.1) rest

/-- The canonical form: strictly rising addresses inside memory, no entry equal to its reset content. -/
def Memory.wf (m : Memory) : Bool :=
  cellsRise none m.cells && m.cells.all fun c => decide (c.1 < Config.memSize) && c.2 != m.initialByte c.1

/-- A byte of the machine's memory. -/
def State.readMem (s : State) (a : Nat) : Byte := s.memory.read a

/-- Write a byte of the machine's memory. -/
def State.writeMem (s : State) (a : Nat) (v : Byte) : State := { s with memory := s.memory.write a v }

/-! ### The call stack (R25) -/

/-- Push `w`, or nothing when all 16 entries are in use (R122). -/
def State.push (s : State) (w : Word) : Option State :=
  if h : s.sp.val < 16 then
    some { s with stack := s.stack.set s.sp.val w, sp := ⟨s.sp.val + 1, by omega⟩ }
  else none

/-- Pop the most recent entry, which is not cleared, or nothing when none is in use (R120). -/
def State.pop (s : State) : Option (Word × State) :=
  if h : 0 < s.sp.val then
    some (s.stack[s.sp.val - 1]'(by omega), { s with sp := ⟨s.sp.val - 1, by omega⟩ })
  else none

/-! ### The framebuffer (R30) -/

/-- Inside the 64 x 32 bounds (R194). -/
def inBounds (col row : Nat) : Bool := decide (col < 64) && decide (row < 32)

/-- `fb[col, row]`; a place outside the bounds has no cell and reads as unlit. -/
def Framebuffer.lit (f : Framebuffer) (col row : Nat) : Bool :=
  if h : col < 64 ∧ row < 32 then (f[row]'h.2)[col]'h.1 else false

/-- `fb[col, row] <- v`; a place outside the bounds has no cell. -/
def Framebuffer.put (f : Framebuffer) (col row : Nat) (v : Bool) : Framebuffer :=
  if h : col < 64 ∧ row < 32 then f.set row ((f[row]'h.2).set col v h.1) h.2 else f

/-- The cell at a linear index: row-major, `row * 64 + col` (R30, decision D20). -/
def Framebuffer.cellAt (f : Framebuffer) (k : Nat) : Bool := Framebuffer.lit f (k % 64) (k / 64)

/-! ### The inputs of a cycle (R33, R110) -/

/-- The cycle's `tick`: what the host decided, else the reference wiring (R105, log entry 4). -/
def State.tick (s : State) : Bool :=
  match s.inputs with
  | [] => Config.referenceTick
  | c :: _ => c.tick

/-- The cycle's `rnd`: what the host decided, else a free draw (R153, log entry 3). -/
def State.rnd (s : State) : Byte :=
  match s.inputs with
  | [] => Config.freeRnd s.cycle
  | c :: _ => c.rnd

/-- `key_state[k]`: the level the host left before the cycle (R30, R110). -/
def State.keyPressed (s : State) (k : Reg) : Bool := s.keyState[k.val]

/-- Between two cycles the host sets the key levels it decided, and the next cycle's inputs come up (R110, R111). -/
def State.hostTurn (s : State) : State :=
  match s.inputs with
  | [] => { s with cycle := s.cycle + 1 }
  | c :: rest => { s with keyState := c.keysAfter, inputs := rest, cycle := s.cycle + 1 }

/-! ### The timer stage (R105, R106) -/

/-- One countdown step of one timer: 0 stays 0 (R105). -/
def countdown (t : Byte) : Byte := if t = 0 then 0 else t - 1

/-- One timer in a cycle whose `tick` is given: left alone when it is false (R105). -/
def countdownWhen (tick : Bool) (t : Byte) : Byte := if tick then countdown t else t

/-- The timer stage of a cycle: gated by `tick`, the two timers independent, nothing else written (R105, R106). -/
def State.timerStage (s : State) : State :=
  { s with
    delayTimer := countdownWhen s.tick s.delayTimer
    soundTimer := countdownWhen s.tick s.soundTimer }

/-! ### Fetch (R101, R102) -/

/-- Both bytes of the instruction are addresses of memory (R56). -/
def fetchInRange (pc : Word) : Bool := decide (pc.toNat ≤ 0xFFE)

/-- The two bytes at `pc` and `pc + 1`, big-endian (R52, R101). -/
def State.fetchWord (s : State) : Word := wordOfBytes (s.readMem s.pc.toNat) (s.readMem (s.pc.toNat + 1))

/-- `latched_opcode <- op` and `pc <- (a + 2) mod 2^16` (R102). -/
def State.latchAndAdvance (s : State) : State := { s with latchedOpcode := s.fetchWord, pc := s.pc + 2 }

/-! ### Taking a fault (R230, R235)

There is no return from a fault: only `initialize` leaves it (R237, `State.coreInitialize`). -/

/-- FAULT ENTRY, the one shared operation: of the state `s0` that the cycle started from everything is kept, and
`fault` becomes `faulted(kind, fault_pc)` (R235). -/
def State.enterFault (s0 : State) (k : Fault) (faultPc : Word) : State := { s0 with fault := .faulted k faultPc }

/-- `raise Fault(k)` in a handler (R8): enter the fault, `fault_pc` being the address the cycle fetched from, 2 below
the `pc` a handler sees (R102, R230). A handler raises before it writes anything (R236); the fetch's own updates of
`latched_opcode` and `pc` are taken back by the cycle, which knows the state it started from (`State.endHandler`). -/
def State.raise (s : State) (k : Fault) : Host.Outcome State Fault Refusal := .next (s.enterFault k (s.pc - 2))

/-- The end of a cycle that started in `s0` (with no fault) and whose handler left `s`: the timer stage, or, when the
handler raised, nothing of the cycle but the fault (R100, R235). -/
def State.endHandler (s0 s : State) : State :=
  match s.fault with
  | .none => s.timerStage
  | .faulted k p => s0.enterFault k p

/-! ### Placing one instruction for the next fetch -/

/-- The address the next fetch can read: `pc`, or the reset vector when `pc` is out of range (R56, R252). -/
def State.placePc (s : State) : Word := if fetchInRange s.pc then s.pc else Config.programBase

/-- Store bytes where the next cycle fetches, in a core that is not faulted (log entry 11). -/
def State.placeBytes (s : State) (bytes : List Byte) : State :=
  { s with pc := s.placePc, fault := .none, memory := s.memory.writeBytes s.placePc.toNat bytes }

end Sys2Proof.Machine
end

