-- ==== Sys2Proof/Machine/Boot.lean ====
section
/-! DEFINITION. The host's operations outside a cycle (R33): `initialize` and `load`. -/

namespace Sys2Proof.Machine

/-- `initialize` (R250): every component of R20 at its reset value, `fault` cleared, the machine's own `GLYPH_ROM`
installed; what belongs to the host, the schedule of inputs and the count of cycles, stays (log entry 13). -/
def State.coreInitialize (s : State) : State :=
  { State.reset with
    memory := { glyphRom := s.memory.glyphRom, cells := [] }
    inputs := s.inputs
    cycle := s.cycle }

/-- `load(image)` (R253): byte `j` to `0x200 + j`, the other bytes kept; an image over 3584 bytes is refused. -/
def State.loadImage (image : List Byte) (s : State) : Host.Outcome State Fault Refusal :=
  if image.length ≤ Config.programMax then
    .next { s with memory := s.memory.writeBytes Config.programBase.toNat image }
  else .refused .imageTooLong

/-- The host presses and releases keys between cycles (R30, R110). -/
def State.setKeys (s : State) (keys : Vector Bool 16) : State := { s with keyState := keys }

end Sys2Proof.Machine
end

