-- ==== Sys2Proof/Machine/Operands.lean ====
section
/-! DEFINITION. The operand forms: the one addressing mode, the address and register operands, the key number. -/

namespace Sys2Proof.Machine

/-- `EA(k) = (I + k) mod 4096`, the address of byte `k` of an I-relative access: the sum is masked, and no access
faults (R55). -/
def State.ea (s : State) (k : Nat) : Nat := (s.I.toNat + k) % Config.memSize

/-- `MemRead(EA(k), 1)`. -/
def State.readEa (s : State) (k : Nat) : Byte := s.readMem (s.ea k)

/-- `MemWrite(EA(k), 1, v)`. -/
def State.writeEa (s : State) (k : Nat) (v : Byte) : State := s.writeMem (s.ea k) v

/-- `zext_16(nnn)` (R73). -/
def addrOperand (nnn : Addr12) : Word := nnn.zeroExtend 16

/-- `zext_16(V[x])` (R7). -/
def State.wideV (s : State) (r : Reg) : Word := (s.readV r).zeroExtend 16

/-- The key number a register holds, or nothing above 0xF (R210, R234). -/
def keyOperand (v : Byte) : Option Reg := if h : v.toNat < 16 then some ⟨v.toNat, h⟩ else none

/-- The lowest-numbered pressed key (R212). -/
def State.firstPressed (s : State) : Option Reg := (List.finRange 16).find? fun k => s.keyPressed k

/-- The address of the glyph of a value, `0x050 + 5 * v`, the value whole (R172). -/
def glyphAddress (v : Byte) : Word := BitVec.ofNat 16 (Config.glyphBase + 5 * v.toNat)

end Sys2Proof.Machine
end

