-- ==== Sys2Proof/Machine/Flags.lean ====
section
/-! DEFINITION. The flag computations: VF is the only flag (R22), each flag a byte 0 or 1, each computed from operand
values read before any write (R140, R141). -/

namespace Sys2Proof.Machine

/-- A flag as VF holds it. -/
def flagByte (c : Bool) : Byte := if c then 1 else 0

/-- add-reg's carry: 1 if the exact sum is above 255 (R148). -/
def carryFlag (a b : Byte) : Byte := flagByte (decide (255 < a.toNat + b.toNat))

/-- sub-reg's not-borrow: 1 if `a >= b` (R149). -/
def notBorrowFlag (a b : Byte) : Byte := flagByte (decide (b.toNat ≤ a.toNat))

/-- shr's flag: the bit shifted out, bit 0 (R150). -/
def lowBitFlag (a : Byte) : Byte := a &&& 1

/-- subn-reg's flag, the reference quirk: the old `V[y]` against the NEW `V[x]` (R151). -/
def subnFlag (b r : Byte) : Byte := flagByte (decide (r.toNat < b.toNat))

/-- shl's flag: the bit shifted out, bit 7 (R152). -/
def highBitFlag (a : Byte) : Byte := (a >>> 7) &&& 1

/-- The result into `V[x]`, then the flag into VF: with `x = 0xF` the flag stands (R141). -/
def State.writeResultFlag (s : State) (x : Reg) (r f : Byte) : State := (s.writeV x r).writeV regF f

end Sys2Proof.Machine
end

