-- ==== Sys2Proof/Machine/Alu.lean ====
section
/-! DEFINITION. Register and arithmetic instructions (42_alu.md): no instruction here raises a fault, and all
arithmetic is unsigned modulo 256 (R140). -/

namespace Sys2Proof.Machine

/-- load-imm: `V[x] <- kk` (R142). -/
def execLoadImm (x : Reg) (kk : Byte) (s : State) : Host.Outcome State Fault Refusal := .next (s.writeV x kk)

/-- add-imm: `V[x] <- (V[x] + kk) mod 256`, no flag (R143). -/
def execAddImm (x : Reg) (kk : Byte) (s : State) : Host.Outcome State Fault Refusal :=
  .next (s.writeV x (s.readV x + kk))

/-- move: `V[x] <- V[y]` (R144). -/
def execMove (x y : Reg) (s : State) : Host.Outcome State Fault Refusal := .next (s.writeV x (s.readV y))

/-- or: `V[x] <- V[x] | V[y]`, VF not reset (R145). -/
def execOr (x y : Reg) (s : State) : Host.Outcome State Fault Refusal :=
  .next (s.writeV x (s.readV x ||| s.readV y))

/-- and: `V[x] <- V[x] & V[y]` (R146). -/
def execAnd (x y : Reg) (s : State) : Host.Outcome State Fault Refusal :=
  .next (s.writeV x (s.readV x &&& s.readV y))

/-- xor: `V[x] <- V[x] ^ V[y]` (R147). -/
def execXor (x y : Reg) (s : State) : Host.Outcome State Fault Refusal :=
  .next (s.writeV x (s.readV x ^^^ s.readV y))

/-- add-reg, with the carry in VF (R148). -/
def execAddReg (x y : Reg) (s : State) : Host.Outcome State Fault Refusal :=
  .next (s.writeResultFlag x (s.readV x + s.readV y) (carryFlag (s.readV x) (s.readV y)))

/-- sub-reg, with the not-borrow in VF (R149). -/
def execSubReg (x y : Reg) (s : State) : Host.Outcome State Fault Refusal :=
  .next (s.writeResultFlag x (s.readV x - s.readV y) (notBorrowFlag (s.readV x) (s.readV y)))

/-- shr: `V[x]` shifted, never `V[y]` (R150). -/
def execShr (x _y : Reg) (s : State) : Host.Outcome State Fault Refusal :=
  .next (s.writeResultFlag x (s.readV x >>> 1) (lowBitFlag (s.readV x)))

/-- subn-reg: `V[y] - V[x]`, with the quirk flag (R151). -/
def execSubnReg (x y : Reg) (s : State) : Host.Outcome State Fault Refusal :=
  .next (s.writeResultFlag x (s.readV y - s.readV x) (subnFlag (s.readV y) (s.readV y - s.readV x)))

/-- shl: `V[x]` shifted, never `V[y]` (R152). -/
def execShl (x _y : Reg) (s : State) : Host.Outcome State Fault Refusal :=
  .next (s.writeResultFlag x (s.readV x <<< 1) (highBitFlag (s.readV x)))

/-- random: `V[x] <- rnd & kk` (R153). -/
def execRandom (x : Reg) (kk : Byte) (s : State) : Host.Outcome State Fault Refusal :=
  .next (s.writeV x (s.rnd &&& kk))

end Sys2Proof.Machine
end

