-- ==== Sys2Proof/Machine/Display.lean ====
section
/-! DEFINITION. Display instructions and the sprite-collision detector (44_display.md). -/

namespace Sys2Proof.Machine

/-- clear-screen: every cell unlit (R191). -/
def execClearScreen (_ign : Byte) (s : State) : Host.Outcome State Fault Refusal := .next (s.setFb blankFramebuffer)

/-- A draw in progress: the framebuffer and the collision detector (R193). -/
structure Canvas where
  fb : Framebuffer
  collision : Bool
  deriving DecidableEq, Repr

/-- One set sprite bit at a place: toggle the cell, and record a collision if it was lit; a place outside the bounds is
dropped and counts for nothing (R193, R194). -/
def Canvas.plot (c : Canvas) (col row : Nat) : Canvas :=
  if inBounds col row then
    { fb := Framebuffer.put c.fb col row (!Framebuffer.lit c.fb col row)
      collision := c.collision || Framebuffer.lit c.fb col row }
  else c

/-- The first `k` pixels of a row byte, from column offset 0: bit 7 is the leftmost (R190). -/
def Canvas.drawByte (c : Canvas) (b : Byte) (x0 row : Nat) : Nat → Canvas
  | 0 => c
  | k + 1 =>
    let d := c.drawByte b x0 row k
    if b.getLsbD (7 - k) then d.plot (x0 + k) row else d

/-- The first `k` rows of the sprite at `EA(0)`, with no wrap of a pixel (R192, R194). -/
def State.drawRows (s : State) (x0 y0 : Nat) (c : Canvas) : Nat → Canvas
  | 0 => c
  | k + 1 => (s.drawRows x0 y0 c k).drawByte (s.readEa k) x0 (y0 + k) 8

/-- The whole draw: the start position wraps, and the detector starts at 0 (R192, R193, R194). -/
def State.drawSprite (s : State) (x y : Reg) (n : Nat) : Canvas :=
  s.drawRows ((s.readV x).toNat % 64) ((s.readV y).toNat % 32) { fb := s.fb, collision := false } n

/-- draw: the toggled framebuffer, and the detector's value into VF last (R192, R193). -/
def execDraw (x y : Reg) (n : Fin 16) (s : State) : Host.Outcome State Fault Refusal :=
  let c := s.drawSprite x y n.val
  .next ((s.setFb c.fb).writeV regF (flagByte c.collision))

end Sys2Proof.Machine
end

