-- ==== Sys2Proof/Machine/Flow.lean ====
section
/-! DEFINITION. Control transfer (41_flow.md) and the no-op handler (R108). Inside a handler `pc` is the address of its
own instruction plus 2 (R102). -/

namespace Sys2Proof.Machine

/-- return: pop into `pc`, or `StackUnderflow` (R120). -/
def execRet (_ign : Byte) (s : State) : Host.Outcome State Fault Refusal :=
  match s.pop with
  | some (w, t) => .next (t.setPc w)
  | none => s.raise .stackUnderflow

/-- jump (R121). -/
def execJump (nnn : Addr12) (s : State) : Host.Outcome State Fault Refusal := .next (s.setPc (addrOperand nnn))

/-- call: push `pc`, or `StackOverflow` (R122). -/
def execCall (nnn : Addr12) (s : State) : Host.Outcome State Fault Refusal :=
  match s.push s.pc with
  | some t => .next (t.setPc (addrOperand nnn))
  | none => s.raise .stackOverflow

/-- skip-eq-imm (R123). -/
def execSkipEqImm (x : Reg) (kk : Byte) (s : State) : Host.Outcome State Fault Refusal :=
  .next (s.skipIf (s.readV x == kk))

/-- skip-ne-imm (R124). -/
def execSkipNeImm (x : Reg) (kk : Byte) (s : State) : Host.Outcome State Fault Refusal :=
  .next (s.skipIf (s.readV x != kk))

/-- skip-eq-reg (R125). -/
def execSkipEqReg (x y : Reg) (_ign : Nibble) (s : State) : Host.Outcome State Fault Refusal :=
  .next (s.skipIf (s.readV x == s.readV y))

/-- skip-ne-reg (R126). -/
def execSkipNeReg (x y : Reg) (_ign : Nibble) (s : State) : Host.Outcome State Fault Refusal :=
  .next (s.skipIf (s.readV x != s.readV y))

/-- jump-offset: the register is always V0, and no 12-bit mask is applied (R127). -/
def execJumpOffset (nnn : Addr12) (s : State) : Host.Outcome State Fault Refusal :=
  .next (s.setPc (addrOperand nnn + s.wideV 0))

/-- The no-op handler: it changes nothing (R108). -/
def nopHandler (s : State) : Host.Outcome State Fault Refusal := .next s

/-- nop, top nibble 0x0, the machine-code call that is ignored (R75, R108). -/
def execNopSys (_ign : Byte) (_s4 : Nibble) (s : State) : Host.Outcome State Fault Refusal := nopHandler s

/-- nop, top nibble 0x8 (R76, R108). -/
def execNopAlu (_x _y : Reg) (_s4 : Nibble) (s : State) : Host.Outcome State Fault Refusal := nopHandler s

/-- nop, top nibble 0xE (R77, R108). -/
def execNopKey (_x : Reg) (_ign _s4 : Nibble) (s : State) : Host.Outcome State Fault Refusal := nopHandler s

/-- nop, top nibble 0xF (R78, R108). -/
def execNopMisc (_x : Reg) (_s8 : Byte) (s : State) : Host.Outcome State Fault Refusal := nopHandler s

end Sys2Proof.Machine
end

