-- ==== Sys2Proof/Machine/Index.lean ====
section
/-! DEFINITION. Index register and memory instructions (43_index_memory.md): none faults, and only set-index, add-index
and glyph-addr change `I`. -/

namespace Sys2Proof.Machine

/-- set-index: `I <- zext_16(nnn)` (R170). -/
def execSetIndex (nnn : Addr12) (s : State) : Host.Outcome State Fault Refusal := .next (s.setI (addrOperand nnn))

/-- add-index: `I <- (I + zext_16(V[x])) mod 2^16`, no flag (R171). -/
def execAddIndex (x : Reg) (s : State) : Host.Outcome State Fault Refusal := .next (s.setI (s.I + s.wideV x))

/-- glyph-addr: `I <- 0x050 + 5 * V[x]` (R172). -/
def execGlyphAddr (x : Reg) (s : State) : Host.Outcome State Fault Refusal :=
  .next (s.setI (glyphAddress (s.readV x)))

/-- bcd-store: hundreds, tens and ones to `EA(0)`, `EA(1)`, `EA(2)`, in this order (R173). -/
def execBcdStore (x : Reg) (s : State) : Host.Outcome State Fault Refusal :=
  let v := s.readV x
  .next (((s.writeEa 0 (v / 100)).writeEa 1 (v / 10 % 10)).writeEa 2 (v % 10))

/-- Store `V[0]` to `V[k-1]` at `EA(0)` to `EA(k-1)`, ascending (R174). -/
def State.dumpRegs (s : State) : Nat → State
  | 0 => s
  | k + 1 => (s.dumpRegs k).writeEa k (s.readV (Fin.ofNat 16 k))

/-- reg-dump: for `i` in `0 .. x`, `MemWrite(EA(i), 1, V[i])` (R174). -/
def execRegDump (x : Reg) (s : State) : Host.Outcome State Fault Refusal := .next (s.dumpRegs (x.val + 1))

/-- Load `V[0]` to `V[k-1]` from `EA(0)` to `EA(k-1)`, ascending (R175). -/
def State.loadRegs (s : State) : Nat → State
  | 0 => s
  | k + 1 => (s.loadRegs k).writeV (Fin.ofNat 16 k) (s.readEa k)

/-- reg-load: for `i` in `0 .. x`, `V[i] <- MemRead(EA(i), 1)` (R175). -/
def execRegLoad (x : Reg) (s : State) : Host.Outcome State Fault Refusal := .next (s.loadRegs (x.val + 1))

end Sys2Proof.Machine
end

