-- ==== Sys2Proof/Machine/Keys.lean ====
section
/-! DEFINITION. Key and timer instructions (45_keys_timers.md). Key states are levels; the timers' countdown is the
cycle's timer stage, after the handler (R107). -/

namespace Sys2Proof.Machine

/-- skip-key: skip when key `V[x]` is pressed, or `KeyIndexOutOfRange` (R210). -/
def execSkipKey (x : Reg) (_ign : Nibble) (s : State) : Host.Outcome State Fault Refusal :=
  match keyOperand (s.readV x) with
  | some k => .next (s.skipIf (s.keyPressed k))
  | none => s.raise .keyIndexOutOfRange

/-- skip-nkey: skip when key `V[x]` is not pressed, or `KeyIndexOutOfRange` (R211). -/
def execSkipNkey (x : Reg) (_ign : Nibble) (s : State) : Host.Outcome State Fault Refusal :=
  match keyOperand (s.readV x) with
  | some k => .next (s.skipIf (!s.keyPressed k))
  | none => s.raise .keyIndexOutOfRange

/-- wait-key: the lowest pressed key into `V[x]`, or refetch this instruction (R212). -/
def execWaitKey (x : Reg) (s : State) : Host.Outcome State Fault Refusal :=
  match s.firstPressed with
  | some k => .next (s.writeV x (BitVec.ofNat 8 k.val))
  | none => .next (s.setPc (s.pc - 2))

/-- get-delay: `V[x] <- delay_timer` (R213). -/
def execGetDelay (x : Reg) (s : State) : Host.Outcome State Fault Refusal := .next (s.writeV x s.delayTimer)

/-- set-delay: `delay_timer <- V[x]` (R214). -/
def execSetDelay (x : Reg) (s : State) : Host.Outcome State Fault Refusal := .next (s.setDelayTimer (s.readV x))

/-- set-sound: `sound_timer <- V[x]` (R215). -/
def execSetSound (x : Reg) (s : State) : Host.Outcome State Fault Refusal := .next (s.setSoundTimer (s.readV x))

end Sys2Proof.Machine
end

