-- ==== Sys2Proof/Machine/Cycle.lean ====
section
/-! DEFINITION. The cycle driver (40_cycle_and_dispatch.md R100). -/

namespace Sys2Proof.Machine

/-- What the cycle does with a handler's answer: a next state is the handler's, and the cycle ends it (R100, R235). -/
def finishCycle (s0 : State) : Host.Outcome State Fault Refusal → Host.Outcome State Fault Refusal
  | .next t => .next (s0.endHandler t)
  | .fault r => .fault r
  | .refused r => .refused r

/-- `run_one_cycle` (R100), its `tick` and `rnd` being the cycle's inputs: a faulted core changes nothing (R109); the
fetch check comes first (R236); then fetch, latch, advance, dispatch, execute, and the timer stage. -/
def runOneCycle (s : State) : Host.Outcome State Fault Refusal :=
  match s.fault with
  | .faulted _ _ => .next s
  | .none =>
    if fetchInRange s.pc then
      finishCycle s (exec (decodeWord s.latchAndAdvance.latchedOpcode) s.latchAndAdvance)
    else .next (s.enterFault .fetchOutOfRange s.pc)

/-- A cycle, and then the host's turn between cycles (R110, R111). -/
def cycleThenHost (s : State) : Host.Outcome State Fault Refusal :=
  match runOneCycle s with
  | .next t => .next t.hostTurn
  | .fault r => .fault r
  | .refused r => .refused r

end Sys2Proof.Machine
end

