-- ==== Sys2Proof/Safety.lean ====
section
/-! DEFINITION. What counts as a safe run, and the terms the claims are stated in: the invariants, where a cycle
faults, what each instruction may change, and the picture a sprite stands for. -/

namespace Sys2Proof

/-! ### What each instruction may change (the Flags and Pseudocode lines of its rule) -/

/-- The general registers an instruction may write: its destination, and VF for the handlers of R22 that write a flag. -/
def Instr.writesReg (r : Reg) : Instr → Bool
  | .loadImm x _ | .addImm x _ | .random x _ => r == x
  | .move x _ | .orReg x _ | .andReg x _ | .xorReg x _ => r == x
  | .addReg x _ | .subReg x _ | .shr x _ | .subnReg x _ | .shl x _ => r == x || r == regF
  | .draw _ _ _ => r == regF
  | .getDelay x | .waitKey x => r == x
  | .regLoad x => decide (r ≤ x)
  | _ => false

/-- The writers of `I` (R23). -/
def Instr.writesI : Instr → Bool
  | .setIndex _ | .addIndex _ | .glyphAddr _ => true
  | _ => false

/-- The handlers that write `pc` (R24). -/
def Instr.writesPc : Instr → Bool
  | .ret _ | .jump _ | .call _ | .jumpOffset _ | .waitKey _ => true
  | .skipEqImm _ _ | .skipNeImm _ _ | .skipEqReg _ _ _ | .skipNeReg _ _ _ => true
  | .skipKey _ _ | .skipNkey _ _ => true
  | _ => false

/-- `sp` is changed only by call and return (R25). -/
def Instr.writesSp : Instr → Bool
  | .ret _ | .call _ => true
  | _ => false

/-- The stack's entries are written only by call (R25). -/
def Instr.writesStack : Instr → Bool
  | .call _ => true
  | _ => false

/-- `delay_timer` is written by set-delay, apart from the timer stage (R27). -/
def Instr.writesDelay : Instr → Bool
  | .setDelay _ => true
  | _ => false

/-- `sound_timer` is written by set-sound, apart from the timer stage (R27). -/
def Instr.writesSound : Instr → Bool
  | .setSound _ => true
  | _ => false

/-- The framebuffer is written only by clear-screen and draw (R30). -/
def Instr.writesFb : Instr → Bool
  | .clearScreen _ | .draw _ _ _ => true
  | _ => false

/-- The handlers that can raise a fault (R230). -/
def Instr.raises : Instr → Bool
  | .ret _ | .call _ | .skipKey _ _ | .skipNkey _ _ => true
  | _ => false

/-- The handlers that read `key_state` (R30, R51). -/
def Instr.readsKeys : Instr → Bool
  | .skipKey _ _ | .skipNkey _ _ | .waitKey _ => true
  | _ => false

/-- The random handler, the one reader of `rnd` (R104). -/
def Instr.readsRnd : Instr → Bool
  | .random _ _ => true
  | _ => false

/-- The no-op handler's constructors (R81: one handler, reached from four top nibbles). -/
def Instr.isNop : Instr → Bool
  | .nopSys _ _ | .nopAlu _ _ _ | .nopKey _ _ _ | .nopMisc _ _ => true
  | _ => false

/-- The unassigned encodings of R80, read off a word as a number. -/
def unassignedEncoding (w : Word) : Prop :=
  (w.toNat / 4096 = 0x0 ∧ w.toNat % 16 ≠ 0x0 ∧ w.toNat % 16 ≠ 0xE) ∨
  (w.toNat / 4096 = 0x8 ∧ 0x8 ≤ w.toNat % 16 ∧ w.toNat % 16 ≠ 0xE) ∨
  (w.toNat / 4096 = 0xE ∧ w.toNat % 16 ≠ 0x1 ∧ w.toNat % 16 ≠ 0xE) ∨
  (w.toNat / 4096 = 0xF ∧ w.toNat % 256 ∉ [0x07, 0x0A, 0x15, 0x18, 0x1E, 0x29, 0x33, 0x55, 0x65])

namespace Machine

/-- The addresses an instruction stores to, computed as its meaning computes them (R173, R174). -/
def State.stores (s : State) (a : Nat) : Instr → Bool
  | .bcdStore _ => a == s.ea 0 || a == s.ea 1 || a == s.ea 2
  | .regDump x => (List.range (x.val + 1)).any fun k => a == s.ea k
  | _ => false

/-! ### Safe runs -/

/-- The core is not faulted (R31). -/
def State.Running (s : State) : Prop := s.fault = .none

/-- Memory is in its canonical form. -/
def State.MemoryCanonical (s : State) : Prop := s.memory.wf = true

/-- The fault a handler raises in a state, if any (R231, R232, R234). -/
def State.handlerFault (s : State) : Instr → Option Fault
  | .call _ => if s.sp.val = 16 then some .stackOverflow else none
  | .ret _ => if s.sp.val = 0 then some .stackUnderflow else none
  | .skipKey x _ | .skipNkey x _ => if 0xF < (s.readV x).toNat then some .keyIndexOutOfRange else none
  | _ => none

/-- The fault the coming cycle of a core that is not faulted raises, if any: the conditions of R230, the fetch check
first (R236), and no other. -/
def State.nextFault (s : State) : Option Fault :=
  if 0xFFF ≤ s.pc.toNat then some .fetchOutOfRange else s.handlerFault (decodeWord s.fetchWord)

/-- A recorded fault tells the truth: `fault_pc` is the `pc` the core stopped at, and the condition of the recorded
kind can be read from the stopped core, its instruction from memory at `fault_pc` (R230, R235). -/
def State.FaultExplained (s : State) : Prop :=
  ∀ k p, s.fault = .faulted k p → p = s.pc ∧ s.nextFault = some k

/-- What a program must keep to for the coming cycle: the call depth within 0 to 16, `pc` inside memory, key numbers
0x0 to 0xF (R257). -/
def State.Conforms (s : State) : Prop := s.nextFault = none

/-! ### The picture of a sprite (R190, R194) -/

/-- The bit of the `n`-row sprite at `EA(0)`, its top left corner at `(x0, y0)`, that falls on a cell: bit 7 of a row
byte is the leftmost pixel. -/
def State.spriteBit (s : State) (x0 y0 n col row : Nat) : Bool :=
  decide (x0 ≤ col ∧ col < x0 + 8 ∧ y0 ≤ row ∧ row < y0 + n) && (s.readEa (row - y0)).getLsbD (7 - (col - x0))

/-- The start column of a draw (R194). -/
def State.startCol (s : State) (x : Reg) : Nat := (s.readV x).toNat % 64

/-- The start row of a draw (R194). -/
def State.startRow (s : State) (y : Reg) : Nat := (s.readV y).toNat % 32

end Machine

end Sys2Proof
end

