-- ==== Sys2Proof/Certificates/Slice0/Obligations.lean ====
section
/-! DEFINITION. The statements for the provers, in the order of the spec's files. Inside a handler `pc` is the address of
the instruction plus 2 (R102), so a statement about `exec` speaks of the state after the fetch. -/

open Sys2Proof Sys2Proof.Machine

/-! ### Encoding (30_encoding.md) -/

/-- Decode and encode agree (R71, R72, R79): no bit of an encoding is dropped. -/
def Obligations.DecodeOfEncodeIsIdentity : Prop :=
  ∀ i : Instr, i.wellFormed = true → decodeWord (encode i) = i

/-- Every word is the word of its own instruction, which is well formed (R79, R80): decode is total and loses nothing.
That ignored bits are kept in the syntax is the model's choice (log entry 9). -/
def Obligations.EveryWordIsTheWordOfItsInstruction : Prop :=
  ∀ w : Word, (decodeWord w).wellFormed = true ∧ encode (decodeWord w) = w

/-- Words written out from the spec's encodings decode to what they stand for (R74 to R78). -/
def Obligations.WrittenOutWordsDecode : Prop :=
  decodeWord 0x600A = .loadImm 0 0x0A ∧ decodeWord 0x8014 = .addReg 0 1 ∧ decodeWord 0xF00A = .waitKey 0 ∧
  decodeWord 0x0000 = .clearScreen 0x00 ∧ decodeWord 0x012E = .ret 0x12 ∧ decodeWord 0x0123 = .nopSys 0x12 0x3 ∧
  decodeWord 0x2300 = .call 0x300 ∧ decodeWord 0x5121 = .skipEqReg 1 2 0x1 ∧ decodeWord 0x830E = .shl 3 0 ∧
  decodeWord 0xD125 = .draw 1 2 5 ∧ decodeWord 0xE0FE = .skipKey 0 0xF ∧ decodeWord 0xE191 = .skipNkey 1 0x9 ∧
  decodeWord 0xF255 = .regDump 2 ∧ decodeWord 0xBFFE = .jumpOffset 0xFFE ∧ decodeWord 0xF00B = .nopMisc 0 0x0B

/-- Two bytes are one instruction, the byte at the lower address the high one (R52, R70); fewer than two are rejected,
which is the model's choice (log entry 16). -/
def Obligations.DecoderTakesTwoBytesBigEndian : Prop :=
  (∀ (hi lo : Byte) (rest : List Byte), ∃ w : Word,
    w.toNat = hi.toNat * 256 + lo.toNat ∧ decodeBytes (hi :: lo :: rest) = .ok (decodeWord w, rest)) ∧
  (∀ b : Byte, decodeBytes [b] = .error .truncated) ∧ decodeBytes [] = .error .truncated

/-- Exactly the unassigned encodings of R80 reach the no-op. -/
def Obligations.NoOpExactlyOnUnassignedEncodings : Prop :=
  ∀ w : Word, (decodeWord w).isNop = true ↔ unassignedEncoding w

/-- In the instructions other than the no-op, the bits a format marks `-`, and `y` in shr and shl, change nothing an
instruction does (R72, R74, R75, R77, R150, R152). For the no-op's fields, see `NoOpChangesNothing`. -/
def Obligations.IgnoredBitsChangeNothing : Prop :=
  ∀ s : State,
    (∀ a b : Byte, exec (.clearScreen a) s = exec (.clearScreen b) s ∧ exec (.ret a) s = exec (.ret b) s) ∧
    (∀ (x y : Reg) (a b : Nibble), exec (.skipEqReg x y a) s = exec (.skipEqReg x y b) s ∧
      exec (.skipNeReg x y a) s = exec (.skipNeReg x y b) s) ∧
    (∀ (x : Reg) (a b : Nibble), exec (.skipKey x a) s = exec (.skipKey x b) s ∧
      exec (.skipNkey x a) s = exec (.skipNkey x b) s) ∧
    (∀ x y z : Reg, exec (.shr x y) s = exec (.shr x z) s ∧ exec (.shl x y) s = exec (.shl x z) s)

/-! ### Register and arithmetic instructions (42_alu.md) -/

/-- load-imm (R142): the encoding, the result, and nothing else. -/
def Obligations.LoadImmWritesItsByte : Prop :=
  ∀ (x : Reg) (kk : Byte), decodeWord (0x6#4 ++ BitVec.ofNat 4 x.val ++ kk) = .loadImm x kk ∧
    ∀ s : State, ∃ t, exec (.loadImm x kk) s = .next t ∧ t = { s with V := t.V } ∧
      t.readV x = kk ∧ ∀ r, r ≠ x → t.readV r = s.readV r

/-- add-imm (R143): the sum modulo 256, and no flag. -/
def Obligations.AddImmAddsModulo256 : Prop :=
  ∀ (x : Reg) (kk : Byte), decodeWord (0x7#4 ++ BitVec.ofNat 4 x.val ++ kk) = .addImm x kk ∧
    ∀ s : State, ∃ t, exec (.addImm x kk) s = .next t ∧ t = { s with V := t.V } ∧
      (t.readV x).toNat = ((s.readV x).toNat + kk.toNat) % 256 ∧ ∀ r, r ≠ x → t.readV r = s.readV r

/-- move, or, and, xor (R144, R145, R146, R147): the result into `V[x]`, VF no flag of theirs. -/
def Obligations.MoveOrAndXorWriteOnlyTheirDestination : Prop :=
  ∀ x y : Reg,
    decodeWord (0x8#4 ++ BitVec.ofNat 4 x.val ++ BitVec.ofNat 4 y.val ++ 0x0#4) = .move x y ∧
    decodeWord (0x8#4 ++ BitVec.ofNat 4 x.val ++ BitVec.ofNat 4 y.val ++ 0x1#4) = .orReg x y ∧
    decodeWord (0x8#4 ++ BitVec.ofNat 4 x.val ++ BitVec.ofNat 4 y.val ++ 0x2#4) = .andReg x y ∧
    decodeWord (0x8#4 ++ BitVec.ofNat 4 x.val ++ BitVec.ofNat 4 y.val ++ 0x3#4) = .xorReg x y ∧
    ∀ s : State,
      (∃ t, exec (.move x y) s = .next t ∧ t = { s with V := t.V } ∧
        t.readV x = s.readV y ∧ ∀ r, r ≠ x → t.readV r = s.readV r) ∧
      (∃ t, exec (.orReg x y) s = .next t ∧ t = { s with V := t.V } ∧
        t.readV x = s.readV x ||| s.readV y ∧ ∀ r, r ≠ x → t.readV r = s.readV r) ∧
      (∃ t, exec (.andReg x y) s = .next t ∧ t = { s with V := t.V } ∧
        t.readV x = s.readV x &&& s.readV y ∧ ∀ r, r ≠ x → t.readV r = s.readV r) ∧
      (∃ t, exec (.xorReg x y) s = .next t ∧ t = { s with V := t.V } ∧
        t.readV x = s.readV x ^^^ s.readV y ∧ ∀ r, r ≠ x → t.readV r = s.readV r)

/-- add-reg (R148): the sum modulo 256 and the carry in VF, written last (R141). -/
def Obligations.AddRegSumsAndCarries : Prop :=
  ∀ x y : Reg, decodeWord (0x8#4 ++ BitVec.ofNat 4 x.val ++ BitVec.ofNat 4 y.val ++ 0x4#4) = .addReg x y ∧
    ∀ s : State, ∃ t, exec (.addReg x y) s = .next t ∧ t = { s with V := t.V } ∧
      (x ≠ regF → (t.readV x).toNat = ((s.readV x).toNat + (s.readV y).toNat) % 256) ∧
      t.readV regF = (if 255 < (s.readV x).toNat + (s.readV y).toNat then 1 else 0) ∧
      ∀ r, r ≠ x → r ≠ regF → t.readV r = s.readV r

/-- sub-reg (R149): the difference modulo 256, and VF = 1 when there is no borrow. -/
def Obligations.SubRegSubtractsAndReportsNoBorrow : Prop :=
  ∀ x y : Reg, decodeWord (0x8#4 ++ BitVec.ofNat 4 x.val ++ BitVec.ofNat 4 y.val ++ 0x5#4) = .subReg x y ∧
    ∀ s : State, ∃ t, exec (.subReg x y) s = .next t ∧ t = { s with V := t.V } ∧
      (x ≠ regF → (t.readV x).toNat = ((s.readV x).toNat + 256 - (s.readV y).toNat) % 256) ∧
      t.readV regF = (if (s.readV y).toNat ≤ (s.readV x).toNat then 1 else 0) ∧
      ∀ r, r ≠ x → r ≠ regF → t.readV r = s.readV r

/-- shr (R150): `V[x]` halved whatever `y` is, and its old bit 0 in VF. -/
def Obligations.ShrHalvesAndReportsBit0 : Prop :=
  ∀ x y : Reg, decodeWord (0x8#4 ++ BitVec.ofNat 4 x.val ++ BitVec.ofNat 4 y.val ++ 0x6#4) = .shr x y ∧
    ∀ s : State, ∃ t, exec (.shr x y) s = .next t ∧ t = { s with V := t.V } ∧
      (x ≠ regF → (t.readV x).toNat = (s.readV x).toNat / 2) ∧
      (t.readV regF).toNat = (s.readV x).toNat % 2 ∧
      ∀ r, r ≠ x → r ≠ regF → t.readV r = s.readV r

/-- subn-reg (R151): `V[y] - V[x]` modulo 256, and the quirk flag: the old `V[y]` above the new `V[x]`. That it is 1
exactly when `0 < a <= b` is the spec's own derivation ("[derived: the `0 < a <= b` characterisation, from this rule's
pseudocode]"). -/
def Obligations.SubnRegSubtractsAndSetsTheQuirkFlag : Prop :=
  ∀ x y : Reg, decodeWord (0x8#4 ++ BitVec.ofNat 4 x.val ++ BitVec.ofNat 4 y.val ++ 0x7#4) = .subnReg x y ∧
    ∀ s : State, ∃ t, exec (.subnReg x y) s = .next t ∧ t = { s with V := t.V } ∧
      (x ≠ regF → (t.readV x).toNat = ((s.readV y).toNat + 256 - (s.readV x).toNat) % 256) ∧
      t.readV regF =
        (if ((s.readV y).toNat + 256 - (s.readV x).toNat) % 256 < (s.readV y).toNat then 1 else 0) ∧
      (t.readV regF = 1 ↔ 0 < (s.readV x).toNat ∧ (s.readV x).toNat ≤ (s.readV y).toNat) ∧
      ∀ r, r ≠ x → r ≠ regF → t.readV r = s.readV r

/-- shl (R152): `V[x]` doubled modulo 256 whatever `y` is, and its old bit 7 in VF. -/
def Obligations.ShlDoublesAndReportsBit7 : Prop :=
  ∀ x y : Reg, decodeWord (0x8#4 ++ BitVec.ofNat 4 x.val ++ BitVec.ofNat 4 y.val ++ 0xE#4) = .shl x y ∧
    ∀ s : State, ∃ t, exec (.shl x y) s = .next t ∧ t = { s with V := t.V } ∧
      (x ≠ regF → (t.readV x).toNat = (s.readV x).toNat * 2 % 256) ∧
      (t.readV regF).toNat = (s.readV x).toNat / 128 ∧
      ∀ r, r ≠ x → r ≠ regF → t.readV r = s.readV r

/-- random (R153): the cycle's `rnd` masked by `kk`. Where the host has decided the cycle's `rnd`, it is that value;
where it has not, `s.rnd` is a free value, and only the mask is claimed of it. The schedule and the free value are the
model's choices (log entries 5 and 3). -/
def Obligations.RandomMasksTheCyclesDraw : Prop :=
  ∀ (x : Reg) (kk : Byte), decodeWord (0xC#4 ++ BitVec.ofNat 4 x.val ++ kk) = .random x kk ∧
    ∀ s : State, ∃ t, exec (.random x kk) s = .next t ∧ t = { s with V := t.V } ∧
      t.readV x = s.rnd &&& kk ∧ (∀ c rest, s.inputs = c :: rest → t.readV x = c.rnd &&& kk) ∧
      t.readV x &&& ~~~kk = 0 ∧ ∀ r, r ≠ x → t.readV r = s.readV r

/-! ### Control transfer (41_flow.md) and the no-op -/

/-- return (R120): the most recent entry into `pc`, the entry not cleared; with `sp = 0` the cycle
ends in the StackUnderflow fault. -/
def Obligations.ReturnPopsOrUnderflows : Prop :=
  ∀ (ign : Byte), decodeWord (0x0#4 ++ ign ++ 0xE#4) = .ret ign ∧
    ∀ s : State,
      (0 < s.sp.val → ∃ t, exec (.ret ign) s = .next t ∧ t = { s with pc := t.pc, sp := t.sp } ∧
        t.sp.val = s.sp.val - 1 ∧ s.stack[s.sp.val - 1]? = some t.pc) ∧
      (s.fault = .none → s.pc.toNat ≤ 0xFFE → decodeWord s.fetchWord = .ret ign → s.sp.val = 0 →
        runOneCycle s = .next { s with fault := .faulted .stackUnderflow s.pc })

/-- jump (R121). -/
def Obligations.JumpGoesToItsAddress : Prop :=
  ∀ nnn : Addr12, decodeWord (0x1#4 ++ nnn) = .jump nnn ∧
    ∀ s : State, ∃ t, exec (.jump nnn) s = .next t ∧ t = { s with pc := t.pc } ∧ t.pc.toNat = nnn.toNat

/-- call (R122): the whole `pc` pushed, the other entries kept; with `sp = 16` the cycle ends in the
StackOverflow fault. -/
def Obligations.CallPushesOrOverflows : Prop :=
  ∀ nnn : Addr12, decodeWord (0x2#4 ++ nnn) = .call nnn ∧
    ∀ s : State,
      (s.sp.val < 16 → ∃ t, exec (.call nnn) s = .next t ∧
        t = { s with pc := t.pc, sp := t.sp, stack := t.stack } ∧ t.pc.toNat = nnn.toNat ∧
        t.sp.val = s.sp.val + 1 ∧ t.stack[s.sp.val]? = some s.pc ∧
        ∀ j : Nat, j ≠ s.sp.val → t.stack[j]? = s.stack[j]?) ∧
      (s.fault = .none → s.pc.toNat ≤ 0xFFE → decodeWord s.fetchWord = .call nnn → s.sp.val = 16 →
        runOneCycle s = .next { s with fault := .faulted .stackOverflow s.pc })

/-- skip-eq-imm and skip-ne-imm (R123, R124). -/
def Obligations.SkipImmComparesWithItsByte : Prop :=
  ∀ (x : Reg) (kk : Byte),
    decodeWord (0x3#4 ++ BitVec.ofNat 4 x.val ++ kk) = .skipEqImm x kk ∧
    decodeWord (0x4#4 ++ BitVec.ofNat 4 x.val ++ kk) = .skipNeImm x kk ∧
    ∀ s : State,
      exec (.skipEqImm x kk) s = .next { s with pc := if s.readV x = kk then s.pc + 2 else s.pc } ∧
      exec (.skipNeImm x kk) s = .next { s with pc := if s.readV x = kk then s.pc else s.pc + 2 }

/-- skip-eq-reg and skip-ne-reg (R125, R126), for every value of the ignored nibble. -/
def Obligations.SkipRegComparesTwoRegisters : Prop :=
  ∀ (x y : Reg) (ign : Nibble),
    decodeWord (0x5#4 ++ BitVec.ofNat 4 x.val ++ BitVec.ofNat 4 y.val ++ ign) = .skipEqReg x y ign ∧
    decodeWord (0x9#4 ++ BitVec.ofNat 4 x.val ++ BitVec.ofNat 4 y.val ++ ign) = .skipNeReg x y ign ∧
    ∀ s : State,
      exec (.skipEqReg x y ign) s = .next { s with pc := if s.readV x = s.readV y then s.pc + 2 else s.pc } ∧
      exec (.skipNeReg x y ign) s = .next { s with pc := if s.readV x = s.readV y then s.pc else s.pc + 2 }

/-- jump-offset (R127): V0 is added, with no wrap and no mask. -/
def Obligations.JumpOffsetAddsV0 : Prop :=
  ∀ nnn : Addr12, decodeWord (0xB#4 ++ nnn) = .jumpOffset nnn ∧
    ∀ s : State, ∃ t, exec (.jumpOffset nnn) s = .next t ∧ t = { s with pc := t.pc } ∧
      t.pc.toNat = nnn.toNat + (s.readV 0).toNat

/-- The no-op handler changes nothing, every unassigned encoding runs it, and its cycle still fetches, advances `pc` and
runs the timer stage (R108). -/
def Obligations.NoOpChangesNothing : Prop :=
  (∀ (s : State) (x y : Reg) (m s8 : Byte) (ign s4 : Nibble),
    exec (.nopSys m s4) s = .next s ∧ exec (.nopAlu x y s4) s = .next s ∧
    exec (.nopKey x ign s4) s = .next s ∧ exec (.nopMisc x s8) s = .next s) ∧
  (∀ (w : Word) (s : State), unassignedEncoding w → exec (decodeWord w) s = .next s) ∧
  ∀ s : State, s.fault = .none → s.pc.toNat ≤ 0xFFE → unassignedEncoding s.fetchWord →
    runOneCycle s = .next ({ s with latchedOpcode := s.fetchWord, pc := s.pc + 2 } : State).timerStage

/-- A return to a stack that a call left gives back the call's `pc` and depth, whatever else the subroutine did (R25). -/
def Obligations.ReturnUndoesCall : Prop :=
  ∀ (nnn : Addr12) (ign : Byte) (s : State), s.sp.val < 16 → ∃ t, exec (.call nnn) s = .next t ∧
    ∀ u : State, u.stack = t.stack → u.sp = t.sp →
      ∃ w, exec (.ret ign) u = .next w ∧ w.pc = s.pc ∧ w.sp = s.sp ∧ w.stack = t.stack

/-! ### Index register and memory instructions (43_index_memory.md) -/

/-- The effective address (R55): the sum is masked, so every I-relative access is inside memory, and no instruction that
makes one faults. -/
def Obligations.EffectiveAddressIsTheMaskedSum : Prop :=
  (∀ (s : State) (k : Nat), s.ea k = (s.I.toNat + k) % 4096 ∧ s.ea k < 4096) ∧
  ∀ (s : State) (x y : Reg) (n : Fin 16), ∀ i ∈ [Instr.bcdStore x, .regDump x, .regLoad x, .draw x y n],
    ∃ t, exec i s = .next t ∧ t.fault = s.fault

/-- set-index (R170). -/
def Obligations.SetIndexWritesItsAddress : Prop :=
  ∀ nnn : Addr12, decodeWord (0xA#4 ++ nnn) = .setIndex nnn ∧
    ∀ s : State, ∃ t, exec (.setIndex nnn) s = .next t ∧ t = { s with I := t.I } ∧ t.I.toNat = nnn.toNat

/-- add-index (R171): modulo 2^16, no mask to 12 bits, no flag. -/
def Obligations.AddIndexWrapsAt16Bits : Prop :=
  ∀ x : Reg, decodeWord (0xF#4 ++ BitVec.ofNat 4 x.val ++ 0x1E#8) = .addIndex x ∧
    ∀ s : State, ∃ t, exec (.addIndex x) s = .next t ∧ t = { s with I := t.I } ∧
      t.I.toNat = (s.I.toNat + (s.readV x).toNat) % 65536

/-- glyph-addr (R172): `V[x]` is used whole. -/
def Obligations.GlyphAddrScalesTheWholeRegister : Prop :=
  ∀ x : Reg, decodeWord (0xF#4 ++ BitVec.ofNat 4 x.val ++ 0x29#8) = .glyphAddr x ∧
    ∀ s : State, ∃ t, exec (.glyphAddr x) s = .next t ∧ t = { s with I := t.I } ∧
      t.I.toNat = 0x050 + 5 * (s.readV x).toNat

/-- bcd-store (R173): three digits at `EA(0)`, `EA(1)`, `EA(2)`, and every other byte as before. -/
def Obligations.BcdStoreStoresThreeDigits : Prop :=
  ∀ x : Reg, decodeWord (0xF#4 ++ BitVec.ofNat 4 x.val ++ 0x33#8) = .bcdStore x ∧
    ∀ s : State, ∃ t, exec (.bcdStore x) s = .next t ∧ t = { s with memory := t.memory } ∧
      (t.readMem (s.ea 0)).toNat = (s.readV x).toNat / 100 ∧
      (t.readMem (s.ea 1)).toNat = (s.readV x).toNat / 10 % 10 ∧
      (t.readMem (s.ea 2)).toNat = (s.readV x).toNat % 10 ∧
      ∀ a, a ≠ s.ea 0 → a ≠ s.ea 1 → a ≠ s.ea 2 → t.readMem a = s.readMem a

/-- reg-dump (R174): V0 to Vx at `EA(0)` to `EA(x)`, and every other byte as before. -/
def Obligations.RegDumpStoresV0ToVx : Prop :=
  ∀ x : Reg, decodeWord (0xF#4 ++ BitVec.ofNat 4 x.val ++ 0x55#8) = .regDump x ∧
    ∀ s : State, ∃ t, exec (.regDump x) s = .next t ∧ t = { s with memory := t.memory } ∧
      (∀ r : Reg, r ≤ x → t.readMem (s.ea r.val) = s.readV r) ∧
      ∀ a, (∀ r : Reg, r ≤ x → a ≠ s.ea r.val) → t.readMem a = s.readMem a

/-- reg-load (R175): V0 to Vx from `EA(0)` to `EA(x)`, VF as data when `x = 0xF`, the registers above `x` kept. -/
def Obligations.RegLoadLoadsV0ToVx : Prop :=
  ∀ x : Reg, decodeWord (0xF#4 ++ BitVec.ofNat 4 x.val ++ 0x65#8) = .regLoad x ∧
    ∀ s : State, ∃ t, exec (.regLoad x) s = .next t ∧ t = { s with V := t.V } ∧
      ∀ r : Reg, t.readV r = if r ≤ x then s.readMem (s.ea r.val) else s.readV r

/-- reg-dump and then reg-load with the same `x`, `I` and memory restores V0 to Vx, whatever the registers held in
between (R175, the Round-trip property). -/
def Obligations.RegLoadUndoesRegDump : Prop :=
  ∀ (x : Reg) (s : State), ∃ t, exec (.regDump x) s = .next t ∧
    ∀ u : State, u.memory = t.memory → u.I = s.I → ∃ w, exec (.regLoad x) u = .next w ∧
      ∀ r : Reg, w.readV r = if r ≤ x then s.readV r else u.readV r

/-- On memory as `initialize` leaves it, glyph-addr of a digit makes `EA(0)` to `EA(4)` the rows of its glyph, whatever
the `GLYPH_ROM` (R172, R251). -/
def Obligations.GlyphAddrFindsTheGlyph : Prop :=
  ∀ (x : Reg) (s : State) (d : Fin 16), s.memory.cells = [] → (s.readV x).toNat = d.val →
    ∃ t, exec (.glyphAddr x) s = .next t ∧ ∀ k : Fin 5, t.readEa k.val = s.memory.glyphRom[d.val][k.val]

/-! ### Display (44_display.md) -/

/-- clear-screen (R191), for every value of the ignored bits. -/
def Obligations.ClearScreenUnlightsEveryCell : Prop :=
  ∀ ign : Byte, decodeWord (0x0#4 ++ ign ++ 0x0#4) = .clearScreen ign ∧
    ∀ s : State, ∃ t, exec (.clearScreen ign) s = .next t ∧ t = { s with fb := t.fb } ∧
      ∀ col row, Framebuffer.lit t.fb col row = false

/-- draw (R192, R193, R194): a cell is toggled exactly where a set bit of the sprite falls inside the bounds, and VF is 1
exactly when such a cell was lit, else 0. -/
def Obligations.DrawTogglesTheSpriteAndReportsCollision : Prop :=
  ∀ (x y : Reg) (n : Fin 16),
    decodeWord (0xD#4 ++ BitVec.ofNat 4 x.val ++ BitVec.ofNat 4 y.val ++ BitVec.ofNat 4 n.val) = .draw x y n ∧
    ∀ s : State, ∃ t, exec (.draw x y n) s = .next t ∧ t = { s with V := t.V, fb := t.fb } ∧
      (∀ r, r ≠ regF → t.readV r = s.readV r) ∧
      (∀ col row, col < 64 → row < 32 → Framebuffer.lit t.fb col row =
        (Framebuffer.lit s.fb col row ^^ s.spriteBit (s.startCol x) (s.startRow y) n.val col row)) ∧
      (t.readV regF = 0 ∨ t.readV regF = 1) ∧
      (t.readV regF = 1 ↔ ∃ col row, col < 64 ∧ row < 32 ∧
        s.spriteBit (s.startCol x) (s.startRow y) n.val col row = true ∧ Framebuffer.lit s.fb col row = true)

/-- Drawing the same sprite at the same place twice restores the framebuffer (R192, the XOR self-inverse), and the
second draw reports a collision exactly when a set bit of the sprite fell, inside the bounds, on a cell that was unlit
before the first draw. The rule's own sentence on the second draw's flag is wider than its pseudocode: log entry 15. -/
def Obligations.DrawingTwiceRestoresTheScreen : Prop :=
  ∀ (x y : Reg) (n : Fin 16) (s t : State), exec (.draw x y n) s = .next t →
    t.startCol x = s.startCol x → t.startRow y = s.startRow y →
    ∃ u, exec (.draw x y n) t = .next u ∧ u.fb = s.fb ∧
      (u.readV regF = 1 ↔ ∃ col row, col < 64 ∧ row < 32 ∧
        s.spriteBit (s.startCol x) (s.startRow y) n.val col row = true ∧ Framebuffer.lit s.fb col row = false)

/-! ### Keys and timers (45_keys_timers.md) -/

/-- skip-key and skip-nkey (R210, R211): the level of key `V[x]`; above 0xF the cycle ends in the KeyIndexOutOfRange
fault. -/
def Obligations.KeySkipsReadOneKeyOrFault : Prop :=
  ∀ (x : Reg) (ign : Nibble),
    decodeWord (0xE#4 ++ BitVec.ofNat 4 x.val ++ ign ++ 0xE#4) = .skipKey x ign ∧
    decodeWord (0xE#4 ++ BitVec.ofNat 4 x.val ++ ign ++ 0x1#4) = .skipNkey x ign ∧
    ∀ s : State,
      (∀ k : Reg, (s.readV x).toNat = k.val →
        exec (.skipKey x ign) s = .next { s with pc := if s.keyPressed k then s.pc + 2 else s.pc } ∧
        exec (.skipNkey x ign) s = .next { s with pc := if s.keyPressed k then s.pc else s.pc + 2 }) ∧
      (s.fault = .none → s.pc.toNat ≤ 0xFFE →
        decodeWord s.fetchWord = .skipKey x ign ∨ decodeWord s.fetchWord = .skipNkey x ign → 0xF < (s.readV x).toNat →
        runOneCycle s = .next { s with fault := .faulted .keyIndexOutOfRange s.pc })

/-- wait-key (R212): the lowest pressed key into `V[x]`; with no key pressed `pc` goes back to this instruction, and the
waiting cycle, the timer stage included, leaves `pc` where it was. -/
def Obligations.WaitKeyTakesTheLowestKeyOrWaits : Prop :=
  ∀ x : Reg, decodeWord (0xF#4 ++ BitVec.ofNat 4 x.val ++ 0x0A#8) = .waitKey x ∧
    ∀ s : State,
      (∀ k : Reg, s.keyPressed k = true → (∀ j, j < k → s.keyPressed j = false) →
        ∃ t, exec (.waitKey x) s = .next t ∧ t = { s with V := t.V } ∧ (t.readV x).toNat = k.val ∧
          ∀ r, r ≠ x → t.readV r = s.readV r) ∧
      ((∀ k, s.keyPressed k = false) → exec (.waitKey x) s = .next { s with pc := s.pc - 2 }) ∧
      (s.fault = .none → s.pc.toNat ≤ 0xFFE → decodeWord s.fetchWord = .waitKey x → (∀ k, s.keyPressed k = false) →
        runOneCycle s = .next ({ s with latchedOpcode := s.fetchWord } : State).timerStage)

/-- get-delay, set-delay, set-sound (R213, R214, R215): the handlers' own effects, before the timer stage. -/
def Obligations.TimerInstructionsMoveOneByte : Prop :=
  ∀ x : Reg,
    decodeWord (0xF#4 ++ BitVec.ofNat 4 x.val ++ 0x07#8) = .getDelay x ∧
    decodeWord (0xF#4 ++ BitVec.ofNat 4 x.val ++ 0x15#8) = .setDelay x ∧
    decodeWord (0xF#4 ++ BitVec.ofNat 4 x.val ++ 0x18#8) = .setSound x ∧
    ∀ s : State,
      (∃ t, exec (.getDelay x) s = .next t ∧ t = { s with V := t.V } ∧ t.readV x = s.delayTimer ∧
        ∀ r, r ≠ x → t.readV r = s.readV r) ∧
      exec (.setDelay x) s = .next { s with delayTimer := s.readV x } ∧
      exec (.setSound x) s = .next { s with soundTimer := s.readV x }

/-! ### What every instruction leaves alone -/

/-- The frame of every instruction: what its row of the effect tables in Safety.lean does not name is unchanged, and
no handler writes the latched opcode, the keys, the host's schedule or the `GLYPH_ROM` (R22 to R27, R30, R51). -/
def Obligations.EveryInstructionKeepsItsFrame : Prop :=
  ∀ (i : Instr) (s t : State), exec i s = .next t →
    (∀ r, i.writesReg r = false → t.readV r = s.readV r) ∧
    (i.writesI = false → t.I = s.I) ∧ (i.writesPc = false → t.pc = s.pc) ∧
    (i.writesSp = false → t.sp = s.sp) ∧ (i.writesStack = false → t.stack = s.stack) ∧
    (i.writesDelay = false → t.delayTimer = s.delayTimer) ∧
    (i.writesSound = false → t.soundTimer = s.soundTimer) ∧
    (i.writesFb = false → t.fb = s.fb) ∧ (i.raises = false → t.fault = s.fault) ∧
    (∀ a, s.stores a i = false → t.readMem a = s.readMem a) ∧
    t.memory.glyphRom = s.memory.glyphRom ∧ t.latchedOpcode = s.latchedOpcode ∧ t.keyState = s.keyState ∧
    t.inputs = s.inputs ∧ t.cycle = s.cycle

/-- `rnd` and the host's schedule reach only the random handler (R104). -/
def Obligations.OnlyRandomReadsTheDraw : Prop :=
  ∀ (i : Instr) (s t : State) (js : List CycleInput) (c : Nat), i.readsRnd = false → exec i s = .next t →
    exec i { s with inputs := js, cycle := c } = .next { t with inputs := js, cycle := c }

/-- The keys are read only by skip-key, skip-nkey and wait-key, and the framebuffer is reached only by clear-screen and
draw (R51, R241). -/
def Obligations.DevicesAreReachedOnlyByTheirInstructions : Prop :=
  ∀ (i : Instr) (s t : State), exec i s = .next t →
    (∀ ks, i.readsKeys = false → exec i { s with keyState := ks } = .next { t with keyState := ks }) ∧
    (∀ f, i.writesFb = false → exec i { s with fb := f } = .next { t with fb := f })

/-! ### The cycle (40_cycle_and_dispatch.md) -/

/-- A step runs the decoded instruction (R100 to R103): when the core is not faulted and the two bytes at `pc` decode to
`i`, the instruction is well formed and the step is `exec i` of the state with the word latched and `pc` advanced by 2;
then, if the handler raised nothing, the timer stage, and if it raised, the state before the cycle with the fault (R235);
and after either, the host's turn. Two things here are the model's choices: the host's turn inside a step (log entry 5),
and that `exec` answers a raise with a next state that records the fault (log entry 6). -/
def Obligations.StepRunsTheDecodedInstruction : Prop :=
  ∀ (s : State) (i : Instr), s.fault = .none → s.pc.toNat ≤ 0xFFE →
    decodeBytes [s.readMem s.pc.toNat, s.readMem (s.pc.toNat + 1)] = .ok (i, []) →
    i.wellFormed = true ∧
    ∃ t, exec i { s with
        latchedOpcode := wordOfBytes (s.readMem s.pc.toNat) (s.readMem (s.pc.toNat + 1)), pc := s.pc + 2 } = .next t ∧
      (t.fault = .none → step s = .next t.timerStage.hostTurn) ∧
      (∀ k p, t.fault = .faulted k p → step s = .next ({ s with fault := .faulted k p } : State).hostTurn)

/-- A cycle that does not fault latches the fetched word, and where the instruction does not write `pc`, `pc` advances by
2 modulo 2^16 (R26, R102). -/
def Obligations.StepLatchesAndAdvances : Prop :=
  ∀ s t : State, s.fault = .none → s.nextFault = none → step s = .next t →
    t.latchedOpcode = s.fetchWord ∧
    ((decodeWord s.fetchWord).writesPc = false → t.pc.toNat = (s.pc.toNat + 2) % 65536)

/-- The timer stage (R105, R106): gated by `tick`, each timer counted down on its own with floor 0, nothing else
written. -/
def Obligations.TimerStageCountsDown : Prop :=
  ∀ s : State,
    (s.tick = false → s.timerStage = s) ∧
    (s.tick = true →
      s.timerStage = { s with delayTimer := s.timerStage.delayTimer, soundTimer := s.timerStage.soundTimer } ∧
      s.timerStage.delayTimer.toNat = s.delayTimer.toNat - 1 ∧
      s.timerStage.soundTimer.toNat = s.soundTimer.toNat - 1)

/-- The timer stage follows the handler (R107): get-delay reads the value before this cycle's countdown, and what
set-delay and set-sound write is counted down in the same cycle. The spec derives this itself ("[derived: from rule R100
and rule R105]"). -/
def Obligations.CountdownFollowsTheHandler : Prop :=
  ∀ (s : State) (x : Reg), s.fault = .none → s.pc.toNat ≤ 0xFFE →
    (decodeWord s.fetchWord = .getDelay x → ∃ t, step s = .next t ∧ t.readV x = s.delayTimer ∧
      t.delayTimer.toNat = if s.tick then s.delayTimer.toNat - 1 else s.delayTimer.toNat) ∧
    (decodeWord s.fetchWord = .setDelay x → ∃ t, step s = .next t ∧
      t.delayTimer.toNat = if s.tick then (s.readV x).toNat - 1 else (s.readV x).toNat) ∧
    (decodeWord s.fetchWord = .setSound x → ∃ t, step s = .next t ∧
      t.soundTimer.toNat = if s.tick then (s.readV x).toNat - 1 else (s.readV x).toNat)

/-- No instruction reads `sound_timer` (R27): two cores that differ only there step to states that differ at most
there. -/
def Obligations.SoundTimerReachesNothingElse : Prop :=
  ∀ (s t : State) (v : Byte), step s = .next t →
    ∃ u, step { s with soundTimer := v } = .next u ∧ ({ u with soundTimer := t.soundTimer } : State) = t

/-- The keys change only between cycles and only as the host decided (R30, R110); each step uses up one cycle's inputs.
That the host's decisions are a list in the state is the model's choice (log entry 5). -/
def Obligations.KeysChangeOnlyByTheHost : Prop :=
  ∀ s t : State, step s = .next t →
    t.keyState = (match s.inputs with | [] => s.keyState | c :: _ => c.keysAfter) ∧
    t.inputs = s.inputs.tail ∧ t.cycle = s.cycle + 1

/-! ### Faults (60_exceptions.md) -/

/-- A cycle faults exactly under the conditions of R230 to R234, and a faulting cycle keeps nothing but the fault, in
which the core then stays (R235). -/
def Obligations.CyclesFaultExactlyWhereTheRulesSay : Prop :=
  ∀ s : State, s.fault = .none →
    (s.nextFault = none → ∃ t, runOneCycle s = .next t ∧ t.fault = .none) ∧
    (∀ k, s.nextFault = some k →
      runOneCycle s = .next { s with fault := .faulted k s.pc } ∧
      runOneCycle { s with fault := .faulted k s.pc } = .next { s with fault := .faulted k s.pc })

/-- A handler that raises writes nothing, and records its kind and the address of its instruction. That it does so in a
next state of its own, from which the cycle takes the fault, is the model's choice (log entry 6). -/
def Obligations.RaisingHandlersOnlyRecordTheFault : Prop :=
  ∀ s : State,
    (∀ ign, s.sp.val = 0 → exec (.ret ign) s = .next { s with fault := .faulted .stackUnderflow (s.pc - 2) }) ∧
    (∀ nnn, s.sp.val = 16 → exec (.call nnn) s = .next { s with fault := .faulted .stackOverflow (s.pc - 2) }) ∧
    (∀ x ign, 0xF < (s.readV x).toNat →
      exec (.skipKey x ign) s = .next { s with fault := .faulted .keyIndexOutOfRange (s.pc - 2) } ∧
      exec (.skipNkey x ign) s = .next { s with fault := .faulted .keyIndexOutOfRange (s.pc - 2) })

/-- A faulted core does not step, neither the loader nor a key change clears its fault, and `initialize` does (R109). -/
def Obligations.FaultedCoreDoesNotStep : Prop :=
  ∀ (s : State) (k : Fault) (p : Word), s.fault = .faulted k p →
    runOneCycle s = .next s ∧
    (∀ keys, (s.setKeys keys).fault = .faulted k p) ∧
    (∀ image t, State.loadImage image s = .next t → t.fault = .faulted k p) ∧
    s.coreInitialize.fault = .none

/-- A step is one cycle and then the host's turn, and a fault is final for the run (R237). The host's turn inside a step
is the model's choice (log entries 5 and 7). -/
def Obligations.StepIsACycleAndTheHostsTurn : Prop :=
  (∀ s t : State, runOneCycle s = .next t → step s = .next t.hostTurn) ∧
  ∀ (s t : State) (k : Fault) (p : Word), s.fault = .faulted k p → step s = .next t →
    t = s.hostTurn ∧ t.fault = .faulted k p

/-- There is no stuck state: every step answers a next state (93_implementation_defined.md, section 1). -/
def Obligations.EveryStateSteps : Prop :=
  ∀ s : State, ∃ t, step s = .next t

/-- Every step keeps a recorded fault explained: `fault_pc` is where the core stands, and the condition of the recorded
kind can be read from the stopped core (R230, R235). -/
def Obligations.StepKeepsFaultsExplained : Prop :=
  ∀ s t : State, s.FaultExplained → step s = .next t → t.FaultExplained

/-- The core is not faulted at reset, so the invariant on faults holds there (R250). With no program loaded, the word at
0x200 is 0x0000, which is clear-screen (R75, log entry 11), so the first cycle raises no fault either; after a `load`
(R254) the first word is the program's, and 0x00EE there would raise one. -/
def Obligations.ResetIsNotFaulted : Prop :=
  State.reset.Running ∧ State.reset.FaultExplained ∧ State.reset.Conforms

/-! ### Memory and reset (20_memory.md, 70_reset_and_hazards.md) -/

/-- Every step keeps memory in its canonical form. The form is the model's own (the log's entry 10). -/
def Obligations.StepKeepsMemoryCanonical : Prop :=
  ∀ s t : State, s.MemoryCanonical → step s = .next t → t.MemoryCanonical

/-- Memory is canonical at reset. -/
def Obligations.ResetMemoryIsCanonical : Prop :=
  State.reset.MemoryCanonical

/-- `initialize` (R250): every component at its reset value, with the machine's own `GLYPH_ROM` installed. -/
def Obligations.InitializeSetsEveryComponent : Prop :=
  ∀ s : State,
    (∀ r, s.coreInitialize.readV r = 0) ∧ s.coreInitialize.I = 0 ∧ s.coreInitialize.pc = 0x200 ∧
    (∀ j : Nat, j < 16 → s.coreInitialize.stack[j]? = some 0) ∧ s.coreInitialize.sp.val = 0 ∧
    s.coreInitialize.latchedOpcode = 0 ∧ s.coreInitialize.delayTimer = 0 ∧ s.coreInitialize.soundTimer = 0 ∧
    (∀ k, s.coreInitialize.keyPressed k = false) ∧
    (∀ col row, Framebuffer.lit s.coreInitialize.fb col row = false) ∧ s.coreInitialize.fault = .none ∧
    (∀ (d : Fin 16) (k : Fin 5),
      s.coreInitialize.readMem (0x050 + 5 * d.val + k.val) = s.memory.glyphRom[d.val][k.val]) ∧
    (∀ a, a < 0x050 ∨ 0x09F < a → s.coreInitialize.readMem a = 0)

/-- The reset state is what `initialize` leaves of a machine with the default `GLYPH_ROM` (log entry 2) once the host has
decided nothing (log entries 3 and 5). -/
def Obligations.ResetIsTheInitializedCore : Prop :=
  ∀ s : State, s.memory.glyphRom = Config.defaultGlyphRom →
    ({ s.coreInitialize with inputs := [], cycle := 0 } : State) = State.reset

/-- `load` (R253): byte `j` at `0x200 + j`, every other byte as before, and an image over 3584 bytes refused.
That a load keeps the bytes it does not reach, at any time, is the model's reading (log entry 12). -/
def Obligations.LoadPlacesTheImageOrRefuses : Prop :=
  ∀ (image : List Byte) (s : State),
    (image.length ≤ 3584 → ∃ t, State.loadImage image s = .next t ∧ t = { s with memory := t.memory } ∧
      (∀ j : Nat, j < image.length → image[j]? = some (t.readMem (0x200 + j))) ∧
      (∀ a, a < 0x200 ∨ 0x200 + image.length ≤ a → t.readMem a = s.readMem a) ∧
      (s.MemoryCanonical → t.MemoryCanonical)) ∧
    (3584 < image.length → State.loadImage image s = .refused .imageTooLong)

/-- A placed instruction is the next one fetched (the model's own operation, log entry 11). -/
def Obligations.PlacedWordIsFetched : Prop :=
  ∀ (s : State) (w : Nat), w < 65536 →
    (s.withFetchWord 16 w).fault = .none ∧ (s.withFetchWord 16 w).pc.toNat ≤ 0xFFE ∧
    (s.withFetchWord 16 w).fetchWord.toNat = w ∧
    decodeTableWord 16 w = some (decodeWord (s.withFetchWord 16 w).fetchWord)
end

