-- ==== Sys2Proof/Laws/State.lean ====
section
/-! SUPPORT. The small lemmas of the state: one for each field under each named update, all true by `rfl`, and the reads that a
named update leaves alone. -/

namespace Sys2Proof.Machine.State

variable (s : State)

/-! ### writeV -/

@[simp] theorem writeV_V (r : Reg) (v : Byte) : (s.writeV r v).V = s.V.set r.val v := rfl
@[simp] theorem writeV_I (r : Reg) (v : Byte) : (s.writeV r v).I = s.I := rfl
@[simp] theorem writeV_pc (r : Reg) (v : Byte) : (s.writeV r v).pc = s.pc := rfl
@[simp] theorem writeV_stack (r : Reg) (v : Byte) : (s.writeV r v).stack = s.stack := rfl
@[simp] theorem writeV_sp (r : Reg) (v : Byte) : (s.writeV r v).sp = s.sp := rfl
@[simp] theorem writeV_latchedOpcode (r : Reg) (v : Byte) : (s.writeV r v).latchedOpcode = s.latchedOpcode := rfl
@[simp] theorem writeV_delayTimer (r : Reg) (v : Byte) : (s.writeV r v).delayTimer = s.delayTimer := rfl
@[simp] theorem writeV_soundTimer (r : Reg) (v : Byte) : (s.writeV r v).soundTimer = s.soundTimer := rfl
@[simp] theorem writeV_keyState (r : Reg) (v : Byte) : (s.writeV r v).keyState = s.keyState := rfl
@[simp] theorem writeV_fb (r : Reg) (v : Byte) : (s.writeV r v).fb = s.fb := rfl
@[simp] theorem writeV_memory (r : Reg) (v : Byte) : (s.writeV r v).memory = s.memory := rfl
@[simp] theorem writeV_fault (r : Reg) (v : Byte) : (s.writeV r v).fault = s.fault := rfl
@[simp] theorem writeV_inputs (r : Reg) (v : Byte) : (s.writeV r v).inputs = s.inputs := rfl
@[simp] theorem writeV_cycle (r : Reg) (v : Byte) : (s.writeV r v).cycle = s.cycle := rfl
@[simp] theorem writeV_readMem (r : Reg) (v : Byte) (q : Nat) : (s.writeV r v).readMem q = s.readMem q := rfl
@[simp] theorem writeV_ea (r : Reg) (v : Byte) (q : Nat) : (s.writeV r v).ea q = s.ea q := rfl
@[simp] theorem writeV_readEa (r : Reg) (v : Byte) (q : Nat) : (s.writeV r v).readEa q = s.readEa q := rfl
@[simp] theorem writeV_tick (r : Reg) (v : Byte) : (s.writeV r v).tick = s.tick := rfl
@[simp] theorem writeV_rnd (r : Reg) (v : Byte) : (s.writeV r v).rnd = s.rnd := rfl
@[simp] theorem writeV_keyPressed (r : Reg) (v : Byte) (q : Reg) : (s.writeV r v).keyPressed q = s.keyPressed q := rfl

/-! ### setI -/

@[simp] theorem setI_V (w : Word) : (s.setI w).V = s.V := rfl
@[simp] theorem setI_I (w : Word) : (s.setI w).I = w := rfl
@[simp] theorem setI_pc (w : Word) : (s.setI w).pc = s.pc := rfl
@[simp] theorem setI_stack (w : Word) : (s.setI w).stack = s.stack := rfl
@[simp] theorem setI_sp (w : Word) : (s.setI w).sp = s.sp := rfl
@[simp] theorem setI_latchedOpcode (w : Word) : (s.setI w).latchedOpcode = s.latchedOpcode := rfl
@[simp] theorem setI_delayTimer (w : Word) : (s.setI w).delayTimer = s.delayTimer := rfl
@[simp] theorem setI_soundTimer (w : Word) : (s.setI w).soundTimer = s.soundTimer := rfl
@[simp] theorem setI_keyState (w : Word) : (s.setI w).keyState = s.keyState := rfl
@[simp] theorem setI_fb (w : Word) : (s.setI w).fb = s.fb := rfl
@[simp] theorem setI_memory (w : Word) : (s.setI w).memory = s.memory := rfl
@[simp] theorem setI_fault (w : Word) : (s.setI w).fault = s.fault := rfl
@[simp] theorem setI_inputs (w : Word) : (s.setI w).inputs = s.inputs := rfl
@[simp] theorem setI_cycle (w : Word) : (s.setI w).cycle = s.cycle := rfl
@[simp] theorem setI_readV (w : Word) (q : Reg) : (s.setI w).readV q = s.readV q := rfl
@[simp] theorem setI_readMem (w : Word) (q : Nat) : (s.setI w).readMem q = s.readMem q := rfl
@[simp] theorem setI_tick (w : Word) : (s.setI w).tick = s.tick := rfl
@[simp] theorem setI_rnd (w : Word) : (s.setI w).rnd = s.rnd := rfl
@[simp] theorem setI_keyPressed (w : Word) (q : Reg) : (s.setI w).keyPressed q = s.keyPressed q := rfl

/-! ### setPc -/

@[simp] theorem setPc_V (w : Word) : (s.setPc w).V = s.V := rfl
@[simp] theorem setPc_I (w : Word) : (s.setPc w).I = s.I := rfl
@[simp] theorem setPc_pc (w : Word) : (s.setPc w).pc = w := rfl
@[simp] theorem setPc_stack (w : Word) : (s.setPc w).stack = s.stack := rfl
@[simp] theorem setPc_sp (w : Word) : (s.setPc w).sp = s.sp := rfl
@[simp] theorem setPc_latchedOpcode (w : Word) : (s.setPc w).latchedOpcode = s.latchedOpcode := rfl
@[simp] theorem setPc_delayTimer (w : Word) : (s.setPc w).delayTimer = s.delayTimer := rfl
@[simp] theorem setPc_soundTimer (w : Word) : (s.setPc w).soundTimer = s.soundTimer := rfl
@[simp] theorem setPc_keyState (w : Word) : (s.setPc w).keyState = s.keyState := rfl
@[simp] theorem setPc_fb (w : Word) : (s.setPc w).fb = s.fb := rfl
@[simp] theorem setPc_memory (w : Word) : (s.setPc w).memory = s.memory := rfl
@[simp] theorem setPc_fault (w : Word) : (s.setPc w).fault = s.fault := rfl
@[simp] theorem setPc_inputs (w : Word) : (s.setPc w).inputs = s.inputs := rfl
@[simp] theorem setPc_cycle (w : Word) : (s.setPc w).cycle = s.cycle := rfl
@[simp] theorem setPc_readV (w : Word) (q : Reg) : (s.setPc w).readV q = s.readV q := rfl
@[simp] theorem setPc_readMem (w : Word) (q : Nat) : (s.setPc w).readMem q = s.readMem q := rfl
@[simp] theorem setPc_ea (w : Word) (q : Nat) : (s.setPc w).ea q = s.ea q := rfl
@[simp] theorem setPc_readEa (w : Word) (q : Nat) : (s.setPc w).readEa q = s.readEa q := rfl
@[simp] theorem setPc_tick (w : Word) : (s.setPc w).tick = s.tick := rfl
@[simp] theorem setPc_rnd (w : Word) : (s.setPc w).rnd = s.rnd := rfl
@[simp] theorem setPc_keyPressed (w : Word) (q : Reg) : (s.setPc w).keyPressed q = s.keyPressed q := rfl

/-! ### skipIf -/

@[simp] theorem skipIf_V (c : Bool) : (s.skipIf c).V = s.V := rfl
@[simp] theorem skipIf_I (c : Bool) : (s.skipIf c).I = s.I := rfl
@[simp] theorem skipIf_pc (c : Bool) : (s.skipIf c).pc = if c then s.pc + 2 else s.pc := rfl
@[simp] theorem skipIf_stack (c : Bool) : (s.skipIf c).stack = s.stack := rfl
@[simp] theorem skipIf_sp (c : Bool) : (s.skipIf c).sp = s.sp := rfl
@[simp] theorem skipIf_latchedOpcode (c : Bool) : (s.skipIf c).latchedOpcode = s.latchedOpcode := rfl
@[simp] theorem skipIf_delayTimer (c : Bool) : (s.skipIf c).delayTimer = s.delayTimer := rfl
@[simp] theorem skipIf_soundTimer (c : Bool) : (s.skipIf c).soundTimer = s.soundTimer := rfl
@[simp] theorem skipIf_keyState (c : Bool) : (s.skipIf c).keyState = s.keyState := rfl
@[simp] theorem skipIf_fb (c : Bool) : (s.skipIf c).fb = s.fb := rfl
@[simp] theorem skipIf_memory (c : Bool) : (s.skipIf c).memory = s.memory := rfl
@[simp] theorem skipIf_fault (c : Bool) : (s.skipIf c).fault = s.fault := rfl
@[simp] theorem skipIf_inputs (c : Bool) : (s.skipIf c).inputs = s.inputs := rfl
@[simp] theorem skipIf_cycle (c : Bool) : (s.skipIf c).cycle = s.cycle := rfl
@[simp] theorem skipIf_readV (c : Bool) (q : Reg) : (s.skipIf c).readV q = s.readV q := rfl
@[simp] theorem skipIf_readMem (c : Bool) (q : Nat) : (s.skipIf c).readMem q = s.readMem q := rfl
@[simp] theorem skipIf_ea (c : Bool) (q : Nat) : (s.skipIf c).ea q = s.ea q := rfl
@[simp] theorem skipIf_readEa (c : Bool) (q : Nat) : (s.skipIf c).readEa q = s.readEa q := rfl
@[simp] theorem skipIf_tick (c : Bool) : (s.skipIf c).tick = s.tick := rfl
@[simp] theorem skipIf_rnd (c : Bool) : (s.skipIf c).rnd = s.rnd := rfl
@[simp] theorem skipIf_keyPressed (c : Bool) (q : Reg) : (s.skipIf c).keyPressed q = s.keyPressed q := rfl

/-! ### setDelayTimer -/

@[simp] theorem setDelayTimer_V (v : Byte) : (s.setDelayTimer v).V = s.V := rfl
@[simp] theorem setDelayTimer_I (v : Byte) : (s.setDelayTimer v).I = s.I := rfl
@[simp] theorem setDelayTimer_pc (v : Byte) : (s.setDelayTimer v).pc = s.pc := rfl
@[simp] theorem setDelayTimer_stack (v : Byte) : (s.setDelayTimer v).stack = s.stack := rfl
@[simp] theorem setDelayTimer_sp (v : Byte) : (s.setDelayTimer v).sp = s.sp := rfl
@[simp] theorem setDelayTimer_latchedOpcode (v : Byte) : (s.setDelayTimer v).latchedOpcode = s.latchedOpcode := rfl
@[simp] theorem setDelayTimer_delayTimer (v : Byte) : (s.setDelayTimer v).delayTimer = v := rfl
@[simp] theorem setDelayTimer_soundTimer (v : Byte) : (s.setDelayTimer v).soundTimer = s.soundTimer := rfl
@[simp] theorem setDelayTimer_keyState (v : Byte) : (s.setDelayTimer v).keyState = s.keyState := rfl
@[simp] theorem setDelayTimer_fb (v : Byte) : (s.setDelayTimer v).fb = s.fb := rfl
@[simp] theorem setDelayTimer_memory (v : Byte) : (s.setDelayTimer v).memory = s.memory := rfl
@[simp] theorem setDelayTimer_fault (v : Byte) : (s.setDelayTimer v).fault = s.fault := rfl
@[simp] theorem setDelayTimer_inputs (v : Byte) : (s.setDelayTimer v).inputs = s.inputs := rfl
@[simp] theorem setDelayTimer_cycle (v : Byte) : (s.setDelayTimer v).cycle = s.cycle := rfl
@[simp] theorem setDelayTimer_readV (v : Byte) (q : Reg) : (s.setDelayTimer v).readV q = s.readV q := rfl
@[simp] theorem setDelayTimer_readMem (v : Byte) (q : Nat) : (s.setDelayTimer v).readMem q = s.readMem q := rfl
@[simp] theorem setDelayTimer_ea (v : Byte) (q : Nat) : (s.setDelayTimer v).ea q = s.ea q := rfl
@[simp] theorem setDelayTimer_readEa (v : Byte) (q : Nat) : (s.setDelayTimer v).readEa q = s.readEa q := rfl
@[simp] theorem setDelayTimer_tick (v : Byte) : (s.setDelayTimer v).tick = s.tick := rfl
@[simp] theorem setDelayTimer_rnd (v : Byte) : (s.setDelayTimer v).rnd = s.rnd := rfl
@[simp] theorem setDelayTimer_keyPressed (v : Byte) (q : Reg) : (s.setDelayTimer v).keyPressed q = s.keyPressed q := rfl

/-! ### setSoundTimer -/

@[simp] theorem setSoundTimer_V (v : Byte) : (s.setSoundTimer v).V = s.V := rfl
@[simp] theorem setSoundTimer_I (v : Byte) : (s.setSoundTimer v).I = s.I := rfl
@[simp] theorem setSoundTimer_pc (v : Byte) : (s.setSoundTimer v).pc = s.pc := rfl
@[simp] theorem setSoundTimer_stack (v : Byte) : (s.setSoundTimer v).stack = s.stack := rfl
@[simp] theorem setSoundTimer_sp (v : Byte) : (s.setSoundTimer v).sp = s.sp := rfl
@[simp] theorem setSoundTimer_latchedOpcode (v : Byte) : (s.setSoundTimer v).latchedOpcode = s.latchedOpcode := rfl
@[simp] theorem setSoundTimer_delayTimer (v : Byte) : (s.setSoundTimer v).delayTimer = s.delayTimer := rfl
@[simp] theorem setSoundTimer_soundTimer (v : Byte) : (s.setSoundTimer v).soundTimer = v := rfl
@[simp] theorem setSoundTimer_keyState (v : Byte) : (s.setSoundTimer v).keyState = s.keyState := rfl
@[simp] theorem setSoundTimer_fb (v : Byte) : (s.setSoundTimer v).fb = s.fb := rfl
@[simp] theorem setSoundTimer_memory (v : Byte) : (s.setSoundTimer v).memory = s.memory := rfl
@[simp] theorem setSoundTimer_fault (v : Byte) : (s.setSoundTimer v).fault = s.fault := rfl
@[simp] theorem setSoundTimer_inputs (v : Byte) : (s.setSoundTimer v).inputs = s.inputs := rfl
@[simp] theorem setSoundTimer_cycle (v : Byte) : (s.setSoundTimer v).cycle = s.cycle := rfl
@[simp] theorem setSoundTimer_readV (v : Byte) (q : Reg) : (s.setSoundTimer v).readV q = s.readV q := rfl
@[simp] theorem setSoundTimer_readMem (v : Byte) (q : Nat) : (s.setSoundTimer v).readMem q = s.readMem q := rfl
@[simp] theorem setSoundTimer_ea (v : Byte) (q : Nat) : (s.setSoundTimer v).ea q = s.ea q := rfl
@[simp] theorem setSoundTimer_readEa (v : Byte) (q : Nat) : (s.setSoundTimer v).readEa q = s.readEa q := rfl
@[simp] theorem setSoundTimer_tick (v : Byte) : (s.setSoundTimer v).tick = s.tick := rfl
@[simp] theorem setSoundTimer_rnd (v : Byte) : (s.setSoundTimer v).rnd = s.rnd := rfl
@[simp] theorem setSoundTimer_keyPressed (v : Byte) (q : Reg) : (s.setSoundTimer v).keyPressed q = s.keyPressed q := rfl

/-! ### setFb -/

@[simp] theorem setFb_V (f : Framebuffer) : (s.setFb f).V = s.V := rfl
@[simp] theorem setFb_I (f : Framebuffer) : (s.setFb f).I = s.I := rfl
@[simp] theorem setFb_pc (f : Framebuffer) : (s.setFb f).pc = s.pc := rfl
@[simp] theorem setFb_stack (f : Framebuffer) : (s.setFb f).stack = s.stack := rfl
@[simp] theorem setFb_sp (f : Framebuffer) : (s.setFb f).sp = s.sp := rfl
@[simp] theorem setFb_latchedOpcode (f : Framebuffer) : (s.setFb f).latchedOpcode = s.latchedOpcode := rfl
@[simp] theorem setFb_delayTimer (f : Framebuffer) : (s.setFb f).delayTimer = s.delayTimer := rfl
@[simp] theorem setFb_soundTimer (f : Framebuffer) : (s.setFb f).soundTimer = s.soundTimer := rfl
@[simp] theorem setFb_keyState (f : Framebuffer) : (s.setFb f).keyState = s.keyState := rfl
@[simp] theorem setFb_fb (f : Framebuffer) : (s.setFb f).fb = f := rfl
@[simp] theorem setFb_memory (f : Framebuffer) : (s.setFb f).memory = s.memory := rfl
@[simp] theorem setFb_fault (f : Framebuffer) : (s.setFb f).fault = s.fault := rfl
@[simp] theorem setFb_inputs (f : Framebuffer) : (s.setFb f).inputs = s.inputs := rfl
@[simp] theorem setFb_cycle (f : Framebuffer) : (s.setFb f).cycle = s.cycle := rfl
@[simp] theorem setFb_readV (f : Framebuffer) (q : Reg) : (s.setFb f).readV q = s.readV q := rfl
@[simp] theorem setFb_readMem (f : Framebuffer) (q : Nat) : (s.setFb f).readMem q = s.readMem q := rfl
@[simp] theorem setFb_ea (f : Framebuffer) (q : Nat) : (s.setFb f).ea q = s.ea q := rfl
@[simp] theorem setFb_readEa (f : Framebuffer) (q : Nat) : (s.setFb f).readEa q = s.readEa q := rfl
@[simp] theorem setFb_tick (f : Framebuffer) : (s.setFb f).tick = s.tick := rfl
@[simp] theorem setFb_rnd (f : Framebuffer) : (s.setFb f).rnd = s.rnd := rfl
@[simp] theorem setFb_keyPressed (f : Framebuffer) (q : Reg) : (s.setFb f).keyPressed q = s.keyPressed q := rfl

/-! ### writeMem -/

@[simp] theorem writeMem_V (a : Nat) (v : Byte) : (s.writeMem a v).V = s.V := rfl
@[simp] theorem writeMem_I (a : Nat) (v : Byte) : (s.writeMem a v).I = s.I := rfl
@[simp] theorem writeMem_pc (a : Nat) (v : Byte) : (s.writeMem a v).pc = s.pc := rfl
@[simp] theorem writeMem_stack (a : Nat) (v : Byte) : (s.writeMem a v).stack = s.stack := rfl
@[simp] theorem writeMem_sp (a : Nat) (v : Byte) : (s.writeMem a v).sp = s.sp := rfl
@[simp] theorem writeMem_latchedOpcode (a : Nat) (v : Byte) : (s.writeMem a v).latchedOpcode = s.latchedOpcode := rfl
@[simp] theorem writeMem_delayTimer (a : Nat) (v : Byte) : (s.writeMem a v).delayTimer = s.delayTimer := rfl
@[simp] theorem writeMem_soundTimer (a : Nat) (v : Byte) : (s.writeMem a v).soundTimer = s.soundTimer := rfl
@[simp] theorem writeMem_keyState (a : Nat) (v : Byte) : (s.writeMem a v).keyState = s.keyState := rfl
@[simp] theorem writeMem_fb (a : Nat) (v : Byte) : (s.writeMem a v).fb = s.fb := rfl
@[simp] theorem writeMem_memory (a : Nat) (v : Byte) : (s.writeMem a v).memory = s.memory.write a v := rfl
@[simp] theorem writeMem_fault (a : Nat) (v : Byte) : (s.writeMem a v).fault = s.fault := rfl
@[simp] theorem writeMem_inputs (a : Nat) (v : Byte) : (s.writeMem a v).inputs = s.inputs := rfl
@[simp] theorem writeMem_cycle (a : Nat) (v : Byte) : (s.writeMem a v).cycle = s.cycle := rfl
@[simp] theorem writeMem_readV (a : Nat) (v : Byte) (q : Reg) : (s.writeMem a v).readV q = s.readV q := rfl
@[simp] theorem writeMem_ea (a : Nat) (v : Byte) (q : Nat) : (s.writeMem a v).ea q = s.ea q := rfl
@[simp] theorem writeMem_tick (a : Nat) (v : Byte) : (s.writeMem a v).tick = s.tick := rfl
@[simp] theorem writeMem_rnd (a : Nat) (v : Byte) : (s.writeMem a v).rnd = s.rnd := rfl
@[simp] theorem writeMem_keyPressed (a : Nat) (v : Byte) (q : Reg) : (s.writeMem a v).keyPressed q = s.keyPressed q := rfl

/-! ### writeEa -/

@[simp] theorem writeEa_V (k : Nat) (v : Byte) : (s.writeEa k v).V = s.V := rfl
@[simp] theorem writeEa_I (k : Nat) (v : Byte) : (s.writeEa k v).I = s.I := rfl
@[simp] theorem writeEa_pc (k : Nat) (v : Byte) : (s.writeEa k v).pc = s.pc := rfl
@[simp] theorem writeEa_stack (k : Nat) (v : Byte) : (s.writeEa k v).stack = s.stack := rfl
@[simp] theorem writeEa_sp (k : Nat) (v : Byte) : (s.writeEa k v).sp = s.sp := rfl
@[simp] theorem writeEa_latchedOpcode (k : Nat) (v : Byte) : (s.writeEa k v).latchedOpcode = s.latchedOpcode := rfl
@[simp] theorem writeEa_delayTimer (k : Nat) (v : Byte) : (s.writeEa k v).delayTimer = s.delayTimer := rfl
@[simp] theorem writeEa_soundTimer (k : Nat) (v : Byte) : (s.writeEa k v).soundTimer = s.soundTimer := rfl
@[simp] theorem writeEa_keyState (k : Nat) (v : Byte) : (s.writeEa k v).keyState = s.keyState := rfl
@[simp] theorem writeEa_fb (k : Nat) (v : Byte) : (s.writeEa k v).fb = s.fb := rfl
@[simp] theorem writeEa_memory (k : Nat) (v : Byte) : (s.writeEa k v).memory = s.memory.write (s.ea k) v := rfl
@[simp] theorem writeEa_fault (k : Nat) (v : Byte) : (s.writeEa k v).fault = s.fault := rfl
@[simp] theorem writeEa_inputs (k : Nat) (v : Byte) : (s.writeEa k v).inputs = s.inputs := rfl
@[simp] theorem writeEa_cycle (k : Nat) (v : Byte) : (s.writeEa k v).cycle = s.cycle := rfl
@[simp] theorem writeEa_readV (k : Nat) (v : Byte) (q : Reg) : (s.writeEa k v).readV q = s.readV q := rfl
@[simp] theorem writeEa_ea (k : Nat) (v : Byte) (q : Nat) : (s.writeEa k v).ea q = s.ea q := rfl
@[simp] theorem writeEa_tick (k : Nat) (v : Byte) : (s.writeEa k v).tick = s.tick := rfl
@[simp] theorem writeEa_rnd (k : Nat) (v : Byte) : (s.writeEa k v).rnd = s.rnd := rfl
@[simp] theorem writeEa_keyPressed (k : Nat) (v : Byte) (q : Reg) : (s.writeEa k v).keyPressed q = s.keyPressed q := rfl

/-! ### enterFault -/

@[simp] theorem enterFault_V (k : Fault) (p : Word) : (s.enterFault k p).V = s.V := rfl
@[simp] theorem enterFault_I (k : Fault) (p : Word) : (s.enterFault k p).I = s.I := rfl
@[simp] theorem enterFault_pc (k : Fault) (p : Word) : (s.enterFault k p).pc = s.pc := rfl
@[simp] theorem enterFault_stack (k : Fault) (p : Word) : (s.enterFault k p).stack = s.stack := rfl
@[simp] theorem enterFault_sp (k : Fault) (p : Word) : (s.enterFault k p).sp = s.sp := rfl
@[simp] theorem enterFault_latchedOpcode (k : Fault) (p : Word) : (s.enterFault k p).latchedOpcode = s.latchedOpcode := rfl
@[simp] theorem enterFault_delayTimer (k : Fault) (p : Word) : (s.enterFault k p).delayTimer = s.delayTimer := rfl
@[simp] theorem enterFault_soundTimer (k : Fault) (p : Word) : (s.enterFault k p).soundTimer = s.soundTimer := rfl
@[simp] theorem enterFault_keyState (k : Fault) (p : Word) : (s.enterFault k p).keyState = s.keyState := rfl
@[simp] theorem enterFault_fb (k : Fault) (p : Word) : (s.enterFault k p).fb = s.fb := rfl
@[simp] theorem enterFault_memory (k : Fault) (p : Word) : (s.enterFault k p).memory = s.memory := rfl
@[simp] theorem enterFault_fault (k : Fault) (p : Word) : (s.enterFault k p).fault = .faulted k p := rfl
@[simp] theorem enterFault_inputs (k : Fault) (p : Word) : (s.enterFault k p).inputs = s.inputs := rfl
@[simp] theorem enterFault_cycle (k : Fault) (p : Word) : (s.enterFault k p).cycle = s.cycle := rfl
@[simp] theorem enterFault_readV (k : Fault) (p : Word) (q : Reg) : (s.enterFault k p).readV q = s.readV q := rfl
@[simp] theorem enterFault_readMem (k : Fault) (p : Word) (q : Nat) : (s.enterFault k p).readMem q = s.readMem q := rfl
@[simp] theorem enterFault_ea (k : Fault) (p : Word) (q : Nat) : (s.enterFault k p).ea q = s.ea q := rfl
@[simp] theorem enterFault_readEa (k : Fault) (p : Word) (q : Nat) : (s.enterFault k p).readEa q = s.readEa q := rfl
@[simp] theorem enterFault_tick (k : Fault) (p : Word) : (s.enterFault k p).tick = s.tick := rfl
@[simp] theorem enterFault_rnd (k : Fault) (p : Word) : (s.enterFault k p).rnd = s.rnd := rfl
@[simp] theorem enterFault_keyPressed (k : Fault) (p : Word) (q : Reg) : (s.enterFault k p).keyPressed q = s.keyPressed q := rfl

/-! ### timerStage -/

@[simp] theorem timerStage_V : s.timerStage.V = s.V := rfl
@[simp] theorem timerStage_I : s.timerStage.I = s.I := rfl
@[simp] theorem timerStage_pc : s.timerStage.pc = s.pc := rfl
@[simp] theorem timerStage_stack : s.timerStage.stack = s.stack := rfl
@[simp] theorem timerStage_sp : s.timerStage.sp = s.sp := rfl
@[simp] theorem timerStage_latchedOpcode : s.timerStage.latchedOpcode = s.latchedOpcode := rfl
@[simp] theorem timerStage_delayTimer : s.timerStage.delayTimer = countdownWhen s.tick s.delayTimer := rfl
@[simp] theorem timerStage_soundTimer : s.timerStage.soundTimer = countdownWhen s.tick s.soundTimer := rfl
@[simp] theorem timerStage_keyState : s.timerStage.keyState = s.keyState := rfl
@[simp] theorem timerStage_fb : s.timerStage.fb = s.fb := rfl
@[simp] theorem timerStage_memory : s.timerStage.memory = s.memory := rfl
@[simp] theorem timerStage_fault : s.timerStage.fault = s.fault := rfl
@[simp] theorem timerStage_inputs : s.timerStage.inputs = s.inputs := rfl
@[simp] theorem timerStage_cycle : s.timerStage.cycle = s.cycle := rfl
@[simp] theorem timerStage_readV (q : Reg) : s.timerStage.readV q = s.readV q := rfl
@[simp] theorem timerStage_readMem (q : Nat) : s.timerStage.readMem q = s.readMem q := rfl
@[simp] theorem timerStage_ea (q : Nat) : s.timerStage.ea q = s.ea q := rfl
@[simp] theorem timerStage_readEa (q : Nat) : s.timerStage.readEa q = s.readEa q := rfl
@[simp] theorem timerStage_tick : s.timerStage.tick = s.tick := rfl
@[simp] theorem timerStage_rnd : s.timerStage.rnd = s.rnd := rfl
@[simp] theorem timerStage_keyPressed (q : Reg) : s.timerStage.keyPressed q = s.keyPressed q := rfl

/-! ### latchAndAdvance -/

@[simp] theorem latchAndAdvance_V : s.latchAndAdvance.V = s.V := rfl
@[simp] theorem latchAndAdvance_I : s.latchAndAdvance.I = s.I := rfl
@[simp] theorem latchAndAdvance_pc : s.latchAndAdvance.pc = s.pc + 2 := rfl
@[simp] theorem latchAndAdvance_stack : s.latchAndAdvance.stack = s.stack := rfl
@[simp] theorem latchAndAdvance_sp : s.latchAndAdvance.sp = s.sp := rfl
@[simp] theorem latchAndAdvance_latchedOpcode : s.latchAndAdvance.latchedOpcode = s.fetchWord := rfl
@[simp] theorem latchAndAdvance_delayTimer : s.latchAndAdvance.delayTimer = s.delayTimer := rfl
@[simp] theorem latchAndAdvance_soundTimer : s.latchAndAdvance.soundTimer = s.soundTimer := rfl
@[simp] theorem latchAndAdvance_keyState : s.latchAndAdvance.keyState = s.keyState := rfl
@[simp] theorem latchAndAdvance_fb : s.latchAndAdvance.fb = s.fb := rfl
@[simp] theorem latchAndAdvance_memory : s.latchAndAdvance.memory = s.memory := rfl
@[simp] theorem latchAndAdvance_fault : s.latchAndAdvance.fault = s.fault := rfl
@[simp] theorem latchAndAdvance_inputs : s.latchAndAdvance.inputs = s.inputs := rfl
@[simp] theorem latchAndAdvance_cycle : s.latchAndAdvance.cycle = s.cycle := rfl
@[simp] theorem latchAndAdvance_readV (q : Reg) : s.latchAndAdvance.readV q = s.readV q := rfl
@[simp] theorem latchAndAdvance_readMem (q : Nat) : s.latchAndAdvance.readMem q = s.readMem q := rfl
@[simp] theorem latchAndAdvance_ea (q : Nat) : s.latchAndAdvance.ea q = s.ea q := rfl
@[simp] theorem latchAndAdvance_readEa (q : Nat) : s.latchAndAdvance.readEa q = s.readEa q := rfl
@[simp] theorem latchAndAdvance_tick : s.latchAndAdvance.tick = s.tick := rfl
@[simp] theorem latchAndAdvance_rnd : s.latchAndAdvance.rnd = s.rnd := rfl
@[simp] theorem latchAndAdvance_keyPressed (q : Reg) : s.latchAndAdvance.keyPressed q = s.keyPressed q := rfl

/-! ### setKeys -/

@[simp] theorem setKeys_V (k : Vector Bool 16) : (s.setKeys k).V = s.V := rfl
@[simp] theorem setKeys_I (k : Vector Bool 16) : (s.setKeys k).I = s.I := rfl
@[simp] theorem setKeys_pc (k : Vector Bool 16) : (s.setKeys k).pc = s.pc := rfl
@[simp] theorem setKeys_stack (k : Vector Bool 16) : (s.setKeys k).stack = s.stack := rfl
@[simp] theorem setKeys_sp (k : Vector Bool 16) : (s.setKeys k).sp = s.sp := rfl
@[simp] theorem setKeys_latchedOpcode (k : Vector Bool 16) : (s.setKeys k).latchedOpcode = s.latchedOpcode := rfl
@[simp] theorem setKeys_delayTimer (k : Vector Bool 16) : (s.setKeys k).delayTimer = s.delayTimer := rfl
@[simp] theorem setKeys_soundTimer (k : Vector Bool 16) : (s.setKeys k).soundTimer = s.soundTimer := rfl
@[simp] theorem setKeys_keyState (k : Vector Bool 16) : (s.setKeys k).keyState = k := rfl
@[simp] theorem setKeys_fb (k : Vector Bool 16) : (s.setKeys k).fb = s.fb := rfl
@[simp] theorem setKeys_memory (k : Vector Bool 16) : (s.setKeys k).memory = s.memory := rfl
@[simp] theorem setKeys_fault (k : Vector Bool 16) : (s.setKeys k).fault = s.fault := rfl
@[simp] theorem setKeys_inputs (k : Vector Bool 16) : (s.setKeys k).inputs = s.inputs := rfl
@[simp] theorem setKeys_cycle (k : Vector Bool 16) : (s.setKeys k).cycle = s.cycle := rfl
@[simp] theorem setKeys_readV (k : Vector Bool 16) (q : Reg) : (s.setKeys k).readV q = s.readV q := rfl
@[simp] theorem setKeys_readMem (k : Vector Bool 16) (q : Nat) : (s.setKeys k).readMem q = s.readMem q := rfl
@[simp] theorem setKeys_ea (k : Vector Bool 16) (q : Nat) : (s.setKeys k).ea q = s.ea q := rfl
@[simp] theorem setKeys_readEa (k : Vector Bool 16) (q : Nat) : (s.setKeys k).readEa q = s.readEa q := rfl
@[simp] theorem setKeys_tick (k : Vector Bool 16) : (s.setKeys k).tick = s.tick := rfl
@[simp] theorem setKeys_rnd (k : Vector Bool 16) : (s.setKeys k).rnd = s.rnd := rfl

/-! ### hostTurn: only the keys, the schedule and the count of cycles -/

@[simp] theorem hostTurn_V : s.hostTurn.V = s.V := by unfold hostTurn; split <;> rfl
@[simp] theorem hostTurn_I : s.hostTurn.I = s.I := by unfold hostTurn; split <;> rfl
@[simp] theorem hostTurn_pc : s.hostTurn.pc = s.pc := by unfold hostTurn; split <;> rfl
@[simp] theorem hostTurn_stack : s.hostTurn.stack = s.stack := by unfold hostTurn; split <;> rfl
@[simp] theorem hostTurn_sp : s.hostTurn.sp = s.sp := by unfold hostTurn; split <;> rfl
@[simp] theorem hostTurn_latchedOpcode : s.hostTurn.latchedOpcode = s.latchedOpcode := by unfold hostTurn; split <;> rfl
@[simp] theorem hostTurn_delayTimer : s.hostTurn.delayTimer = s.delayTimer := by unfold hostTurn; split <;> rfl
@[simp] theorem hostTurn_soundTimer : s.hostTurn.soundTimer = s.soundTimer := by unfold hostTurn; split <;> rfl
@[simp] theorem hostTurn_fb : s.hostTurn.fb = s.fb := by unfold hostTurn; split <;> rfl
@[simp] theorem hostTurn_memory : s.hostTurn.memory = s.memory := by unfold hostTurn; split <;> rfl
@[simp] theorem hostTurn_fault : s.hostTurn.fault = s.fault := by unfold hostTurn; split <;> rfl
@[simp] theorem hostTurn_cycle : s.hostTurn.cycle = s.cycle + 1 := by unfold hostTurn; split <;> rfl
@[simp] theorem hostTurn_inputs : s.hostTurn.inputs = s.inputs.tail := by
  unfold hostTurn; split <;> simp [*]
@[simp] theorem hostTurn_readV (q : Reg) : s.hostTurn.readV q = s.readV q := by simp [readV]
@[simp] theorem hostTurn_readMem (q : Nat) : s.hostTurn.readMem q = s.readMem q := by simp [readMem]

end Sys2Proof.Machine.State

namespace Sys2Proof.Machine

/-- A countdown as a number: floor 0 (R105). -/
theorem countdown_toNat (t : Byte) : (countdown t).toNat = t.toNat - 1 := by
  unfold countdown
  split
  · simp [*]
  · rename_i h
    have : t.toNat ≠ 0 := fun e => h (BitVec.eq_of_toNat_eq e)
    simp [BitVec.toNat_sub]; omega

/-- A timer after a cycle, as a number (R105). -/
theorem countdownWhen_toNat (c : Bool) (t : Byte) :
    (countdownWhen c t).toNat = if c then t.toNat - 1 else t.toNat := by
  cases c
  · rfl
  · exact countdown_toNat t

end Sys2Proof.Machine
end

