-- ==== Sys2Proof/Laws/Memory.lean ====
section
/-! SUPPORT. The laws of memory: a read after a write (R60), the canonical form and its preservation, and equality of
canonical memories. -/

namespace Sys2Proof.Machine

/-! ### Lists of cells -/

theorem lookupCell_eraseCell_self (a : Nat) (l : List Host.Cell) : lookupCell a (eraseCell a l) = none := by
  induction l with
  | nil => rfl
  | cons c l ih =>
    simp only [eraseCell, List.filter_cons] at ih ⊢
    by_cases h : c.1 = a
    · simpa [h] using ih
    · simpa [h, lookupCell] using ih

theorem lookupCell_eraseCell_ne {a b : Nat} (hab : b ≠ a) (l : List Host.Cell) :
    lookupCell b (eraseCell a l) = lookupCell b l := by
  induction l with
  | nil => rfl
  | cons c l ih =>
    simp only [eraseCell, List.filter_cons] at ih ⊢
    by_cases h : c.1 = a
    · have hb : ¬ c.1 = b := fun e => hab (e.symm.trans h)
      rw [if_neg (by simpa using h), lookupCell, if_neg hb, ih]
    · rw [if_pos (by simpa using h), lookupCell, lookupCell, ih]

theorem lookupCell_insertCell_self {a : Nat} (v : Byte) {l : List Host.Cell} (h : lookupCell a l = none) :
    lookupCell a (insertCell a v l) = some v := by
  induction l with
  | nil => simp [insertCell, lookupCell]
  | cons c l ih =>
    simp only [lookupCell] at h
    split at h
    · cases h
    · rename_i hc
      unfold insertCell
      split
      · simp [lookupCell]
      · simp [lookupCell, hc, ih h]

theorem lookupCell_insertCell_ne {a b : Nat} (hab : b ≠ a) (v : Byte) (l : List Host.Cell) :
    lookupCell b (insertCell a v l) = lookupCell b l := by
  induction l with
  | nil => simp [insertCell, lookupCell, hab.symm]
  | cons c l ih =>
    unfold insertCell
    split
    · simp [lookupCell, hab.symm]
    · simp [lookupCell, ih]

/-! ### Read after write -/

namespace Memory

variable (m : Memory)

@[simp] theorem write_glyphRom (a : Nat) (v : Byte) : (m.write a v).glyphRom = m.glyphRom := by
  unfold write; split <;> rfl

theorem initialByte_congr {m m' : Memory} (h : m'.glyphRom = m.glyphRom) (a : Nat) :
    m'.initialByte a = m.initialByte a := by
  simp only [initialByte, h]

@[simp] theorem write_initialByte (a : Nat) (v : Byte) (b : Nat) : (m.write a v).initialByte b = m.initialByte b :=
  initialByte_congr (m.write_glyphRom a v) b

/-- Every read after a write, in one lemma: the written address gives the value, every other address what it gave
(R59, R60). -/
theorem read_write {a : Nat} (ha : a < Config.memSize) (v : Byte) (b : Nat) :
    (m.write a v).read b = if b = a then v else m.read b := by
  unfold read
  rw [write_initialByte]
  simp only [write, if_pos ha]
  by_cases hb : b = a
  · subst hb
    rw [if_pos rfl]
    split
    · rename_i hv
      simp [lookupCell_eraseCell_self, hv]
    · simp [lookupCell_insertCell_self v (lookupCell_eraseCell_self b m.cells)]
  · rw [if_neg hb]
    split
    · rw [lookupCell_eraseCell_ne hb]
    · rw [lookupCell_insertCell_ne hb, lookupCell_eraseCell_ne hb]

/-- Bytes written in ascending order are there afterwards, and nothing else has changed (R53, R253). -/
theorem read_writeBytes (bytes : List Byte) : ∀ (m : Memory) (a : Nat), a + bytes.length ≤ Config.memSize → ∀ b,
    (m.writeBytes a bytes).read b = if a ≤ b then bytes.getD (b - a) (m.read b) else m.read b := by
  induction bytes with
  | nil => intro m a _ b; simp [writeBytes]
  | cons v rest ih =>
    intro m a ha b
    simp only [List.length_cons] at ha
    rw [writeBytes, ih _ _ (by omega), read_write m (by omega)]
    by_cases h1 : a + 1 ≤ b
    · have h2 : b - a = (b - (a + 1)) + 1 := by omega
      have h3 : b ≠ a := by omega
      simp [h1, h2, h3, show a ≤ b by omega]
    · by_cases h4 : b = a
      · subst h4; simp
      · simp [h1, h4, show ¬ a ≤ b by omega]

@[simp] theorem writeBytes_glyphRom (bytes : List Byte) :
    ∀ (m : Memory) (a : Nat), (m.writeBytes a bytes).glyphRom = m.glyphRom := by
  induction bytes with
  | nil => intro m a; rfl
  | cons v rest ih => intro m a; simp [writeBytes, ih]

/-! ### The canonical form -/

/-- A lower bound of the first address is one of every address of a rising list. -/
theorem cellsRise_weaken {lo lo' : Nat} (h : lo' ≤ lo) :
    ∀ {l : List Host.Cell}, cellsRise (some lo) l = true → cellsRise (some lo') l = true := by
  intro l hl
  cases l with
  | nil => rfl
  | cons c l =>
    simp only [cellsRise, Bool.and_eq_true, decide_eq_true_eq] at hl ⊢
    exact ⟨by omega, hl.2⟩

theorem cellsRise_eraseCell (a : Nat) : ∀ (l : List Host.Cell) (lo : Option Nat),
    cellsRise lo l = true → cellsRise lo (eraseCell a l) = true := by
  intro l
  induction l with
  | nil => intro lo _; rfl
  | cons c l ih =>
    intro lo h
    simp only [eraseCell, List.filter_cons] at ih ⊢
    have h' := h
    simp only [cellsRise, Bool.and_eq_true] at h'
    split
    · simp only [cellsRise, Bool.and_eq_true]
      exact ⟨h'.1, ih _ h'.2⟩
    · cases lo with
      | none => exact ih none (by
          cases l with
          | nil => rfl
          | cons d l =>
            have := h'.2
            simp only [cellsRise, Bool.and_eq_true] at this ⊢
            exact ⟨trivial, this.2⟩)
      | some k => exact ih _ (cellsRise_weaken (by simpa using Nat.le_of_lt (by simpa using h'.1)) h'.2)

theorem cellsRise_insertCell (a : Nat) (v : Byte) : ∀ (l : List Host.Cell) (lo : Option Nat),
    cellsRise lo l = true → lookupCell a l = none → (∀ k, lo = some k → k < a) →
    cellsRise lo (insertCell a v l) = true := by
  intro l
  induction l with
  | nil =>
    intro lo _ _ hlo
    cases lo with
    | none => simp [insertCell, cellsRise]
    | some k => simpa [insertCell, cellsRise] using hlo k rfl
  | cons c l ih =>
    intro lo h hn hlo
    simp only [lookupCell] at hn
    split at hn
    · cases hn
    · rename_i hc
      have h' := h
      simp only [cellsRise, Bool.and_eq_true] at h'
      unfold insertCell
      split
      · rename_i hlt
        simp only [cellsRise, Bool.and_eq_true, decide_eq_true_eq]
        refine ⟨?_, hlt, h'.2⟩
        cases lo with
        | none => rfl
        | some k => simpa using hlo k rfl
      · rename_i hlt
        simp only [cellsRise, Bool.and_eq_true]
        refine ⟨h'.1, ih _ h'.2 hn ?_⟩
        rintro k ⟨⟩
        omega

theorem mem_insertCell {a : Nat} {v : Byte} {c : Host.Cell} {l : List Host.Cell} (h : c ∈ insertCell a v l) :
    c = (a, v) ∨ c ∈ l := by
  induction l with
  | nil => exact .inl (by simpa [insertCell] using h)
  | cons d l ih =>
    unfold insertCell at h
    split at h
    · simpa using h
    · rcases List.mem_cons.mp h with h | h
      · exact .inr (by simp [h])
      · rcases ih h with h | h
        · exact .inl h
        · exact .inr (by simp [h])

/-- The two halves of the canonical form. -/
theorem wf_iff : m.wf = true ↔ cellsRise none m.cells = true ∧
    ∀ c ∈ m.cells, c.1 < Config.memSize ∧ c.2 ≠ m.initialByte c.1 := by
  simp [wf]

/-- A write keeps the canonical form. -/
theorem write_wf (a : Nat) (v : Byte) (h : m.wf = true) : (m.write a v).wf = true := by
  by_cases ha : a < Config.memSize
  · obtain ⟨h1, h2⟩ := m.wf_iff.mp h
    rw [wf_iff]
    simp only [write_initialByte]
    simp only [write, if_pos ha]
    have e1 := cellsRise_eraseCell a m.cells none h1
    have e2 : ∀ c ∈ eraseCell a m.cells, c.1 < Config.memSize ∧ c.2 ≠ m.initialByte c.1 :=
      fun c hc => h2 c (List.mem_of_mem_filter hc)
    split
    · exact ⟨e1, e2⟩
    · rename_i hv
      refine ⟨cellsRise_insertCell a v _ none e1 (lookupCell_eraseCell_self a _) (by simp), fun c hc => ?_⟩
      rcases mem_insertCell hc with rfl | hc
      · exact ⟨ha, hv⟩
      · exact e2 c hc
  · simpa [write, ha] using h

/-- So does a sequence of writes. -/
theorem writeBytes_wf (bytes : List Byte) : ∀ (m : Memory) (a : Nat), m.wf = true → (m.writeBytes a bytes).wf = true := by
  induction bytes with
  | nil => intro m a h; exact h
  | cons v rest ih => intro m a h; exact ih _ _ (write_wf m a v h)

/-- The memory `initialize` leaves is canonical, whatever the `GLYPH_ROM`. -/
theorem wf_nil (rom : Vector (Vector Byte 5) 16) : Memory.wf { glyphRom := rom, cells := [] } = true := rfl

theorem lookupCell_of_rise {lo : Nat} : ∀ {l : List Host.Cell}, cellsRise (some lo) l = true →
    ∀ {b : Nat}, b ≤ lo → lookupCell b l = none := by
  intro l
  induction l generalizing lo with
  | nil => intro _ b _; rfl
  | cons c l ih =>
    intro h b hb
    simp only [cellsRise, Bool.and_eq_true, decide_eq_true_eq] at h
    rw [lookupCell, if_neg (by omega)]
    exact ih h.2 (by omega)

/-- Rising lists without reset contents are determined by what they read as. -/
theorem cells_ext {f : Nat → Byte} : ∀ {l l' : List Host.Cell} {lo lo' : Option Nat},
    cellsRise lo l = true → cellsRise lo' l' = true → (∀ c ∈ l, c.2 ≠ f c.1) → (∀ c ∈ l', c.2 ≠ f c.1) →
    (∀ b, (lookupCell b l).getD (f b) = (lookupCell b l').getD (f b)) → l = l' := by
  intro l
  induction l with
  | nil =>
    intro l' lo lo' _ _ _ h2 he
    cases l' with
    | nil => rfl
    | cons c l' =>
      have := he c.1
      simp only [lookupCell, if_true, Option.getD_none, Option.getD_some] at this
      exact absurd this.symm (h2 c (by simp))
  | cons c l ih =>
    intro l' lo lo' r1 r2 h1 h2 he
    cases l' with
    | nil =>
      have := he c.1
      simp only [lookupCell, if_true, Option.getD_none, Option.getD_some] at this
      exact absurd this (h1 c (by simp))
    | cons d l' =>
      simp only [cellsRise, Bool.and_eq_true] at r1 r2
      have hcd : c.1 = d.1 := by
        by_contra hne
        rcases Nat.lt_or_gt_of_ne hne with hlt | hlt
        · have := he c.1
          rw [lookupCell, if_pos rfl, lookupCell, if_neg (by omega), lookupCell_of_rise r2.2 (by omega)] at this
          exact h1 c (by simp) (by simpa using this)
        · have := he d.1
          rw [lookupCell, if_neg (by omega), lookupCell_of_rise r1.2 (by omega), lookupCell, if_pos rfl] at this
          exact h2 d (by simp) (by simpa using this.symm)
      have hv : c.2 = d.2 := by
        have := he c.1
        rw [lookupCell, if_pos rfl, lookupCell, if_pos hcd.symm] at this
        simpa using this
      have hc : c = d := Prod.ext hcd hv
      subst hc
      congr 1
      refine ih r1.2 r2.2 (fun c hc => h1 c (by simp [hc])) (fun c hc => h2 c (by simp [hc])) fun b => ?_
      by_cases hb : b ≤ c.1
      · rw [lookupCell_of_rise r1.2 hb, lookupCell_of_rise r2.2 hb]
      · have := he b
        have hn : ¬ c.1 = b := by omega
        rw [lookupCell, if_neg hn, lookupCell, if_neg hn] at this
        exact this

/-- Equal canonical memories are equal data: with the same `GLYPH_ROM`, equal reads give equal memories. -/
theorem ext_of_read {m m' : Memory} (h : m.wf = true) (h' : m'.wf = true) (hr : m.glyphRom = m'.glyphRom)
    (he : ∀ b, m.read b = m'.read b) : m = m' := by
  obtain ⟨r1, c1⟩ := m.wf_iff.mp h
  obtain ⟨r2, c2⟩ := m'.wf_iff.mp h'
  have hi : ∀ b, m'.initialByte b = m.initialByte b := initialByte_congr hr.symm
  have hc : m.cells = m'.cells := by
    refine cells_ext (f := m.initialByte) r1 r2 (fun c hc => (c1 c hc).2) (fun c hc => hi c.1 ▸ (c2 c hc).2) fun b => ?_
    have := he b
    simpa only [read, hi] using this
  cases m; cases m'; simp_all

end Memory

/-! ### The machine's memory -/

namespace State

variable (s : State)

/-- Every effective address is an address of memory (R55). -/
theorem ea_lt (k : Nat) : s.ea k < Config.memSize := Nat.mod_lt _ (by decide)

/-- Offsets below 4096 of each other reach different bytes (R55). -/
theorem ea_inj {j k : Nat} (hj : j < Config.memSize) (hk : k < Config.memSize) (h : s.ea j = s.ea k) : j = k := by
  simp only [ea, Config.memSize] at *
  omega

/-- A read of memory after an I-relative write (R55, R60). -/
theorem readMem_writeEa (k : Nat) (v : Byte) (a : Nat) :
    (s.writeEa k v).readMem a = if a = s.ea k then v else s.readMem a :=
  Memory.read_write s.memory (s.ea_lt k) v a

theorem writeEa_memory_wf (k : Nat) (v : Byte) (h : s.memory.wf = true) : (s.writeEa k v).memory.wf = true :=
  Memory.write_wf _ _ _ h

end State

end Sys2Proof.Machine
end

