-- ==== Sys2Proof/Laws/Registers.lean ====
section
/-! SUPPORT. The laws of the register file and the stack: what a read gives after a write. -/

namespace Sys2Proof.Machine.State

variable (s : State)

/-- A read of a register after a write: the value written, or the register as it was (R21). -/
theorem readV_writeV (r q : Reg) (v : Byte) : (s.writeV r v).readV q = if q = r then v else s.readV q := by
  by_cases h : q = r
  · subst h; simp [readV, writeV]
  · have h' : r.val ≠ q.val := fun e => h (Fin.ext e.symm)
    simp [readV, writeV, h, h']

@[simp] theorem readV_writeV_self (r : Reg) (v : Byte) : (s.writeV r v).readV r = v := by
  simp [readV_writeV]

@[simp] theorem readV_writeV_ne {r q : Reg} (h : q ≠ r) (v : Byte) : (s.writeV r v).readV q = s.readV q := by
  simp [readV_writeV, h]

@[simp] theorem readMem_writeV (r : Reg) (v : Byte) (a : Nat) : (s.writeV r v).readMem a = s.readMem a := rfl

/-- The registers after a result and a flag: the flag is written last (R141). -/
theorem readV_writeResultFlag (x q : Reg) (r f : Byte) :
    (s.writeResultFlag x r f).readV q = if q = regF then f else if q = x then r else s.readV q := by
  simp only [writeResultFlag, readV_writeV]

/-- Writing a result and a flag changes nothing but registers. -/
theorem writeResultFlag_frame (x : Reg) (r f : Byte) :
    s.writeResultFlag x r f = { s with V := (s.writeResultFlag x r f).V } := rfl

/-- Two register files that read alike are alike. -/
theorem V_ext {s t : State} (h : ∀ r, t.readV r = s.readV r) : t.V = s.V := by
  apply Vector.ext
  intro i hi
  exact h ⟨i, hi⟩

/-- Everything a push can do (R25, R122). -/
theorem push_cases (w : Word) :
    (∃ h : s.sp.val < 16, s.push w =
      some { s with stack := s.stack.set s.sp.val w, sp := ⟨s.sp.val + 1, by omega⟩ }) ∨
    (s.sp.val = 16 ∧ s.push w = none) := by
  by_cases h : s.sp.val < 16
  · exact .inl ⟨h, by simp [push, h]⟩
  · exact .inr ⟨by omega, by simp [push, h]⟩

/-- Everything a pop can do (R25, R120). -/
theorem pop_cases :
    (∃ h : 0 < s.sp.val, s.pop =
      some (s.stack[s.sp.val - 1]'(by omega), { s with sp := ⟨s.sp.val - 1, by omega⟩ })) ∨
    (s.sp.val = 0 ∧ s.pop = none) := by
  by_cases h : 0 < s.sp.val
  · exact .inl ⟨h, by simp [pop, h]⟩
  · exact .inr ⟨by omega, by simp [pop, h]⟩

end Sys2Proof.Machine.State
end

