-- ==== Sys2Proof/Laws/Transfer.lean ====
section
/-! SUPPORT. What the shared operations of reg-dump, reg-load and wait-key do, once for each. -/

namespace Sys2Proof.Machine.State

variable (s : State)

/-- Everything the first `k` stores of reg-dump do (R174). -/
theorem dumpRegs_spec {k : Nat} (hk : k ≤ 16) :
    (∀ j, j < k → (s.dumpRegs k).readMem (s.ea j) = s.readV (Fin.ofNat 16 j)) ∧
    (∀ a, (∀ j, j < k → a ≠ s.ea j) → (s.dumpRegs k).readMem a = s.readMem a) ∧
    s.dumpRegs k = { s with memory := (s.dumpRegs k).memory } ∧
    (s.dumpRegs k).memory.glyphRom = s.memory.glyphRom ∧
    (s.memory.wf = true → (s.dumpRegs k).memory.wf = true) := by
  induction k with
  | zero => exact ⟨by simp, by simp [dumpRegs], rfl, rfl, id⟩
  | succ k ih =>
    obtain ⟨h1, h2, h3, h4, h5⟩ := ih (by omega)
    have hea : ∀ j, (s.dumpRegs k).ea j = s.ea j := fun j => by rw [h3]; rfl
    have hread : ∀ a, (s.dumpRegs (k + 1)).readMem a =
        if a = s.ea k then s.readV (Fin.ofNat 16 k) else (s.dumpRegs k).readMem a := fun a => by
      rw [dumpRegs, readMem_writeEa, hea]
    refine ⟨fun j hj => ?_, fun a ha => ?_, ?_, ?_, fun hw => writeEa_memory_wf _ _ _ (h5 hw)⟩
    · rw [hread]
      by_cases hjk : j = k
      · subst hjk; simp
      · have hne : s.ea j ≠ s.ea k := fun e =>
          hjk (s.ea_inj (by simp only [Config.memSize]; omega) (by simp only [Config.memSize]; omega) e)
        rw [if_neg hne, h1 j (by omega)]
    · rw [hread, if_neg (ha k (by omega))]
      exact h2 a fun j hj => ha j (by omega)
    · rw [dumpRegs, writeEa, writeMem, h3]
    · rw [dumpRegs, writeEa_memory, Memory.write_glyphRom, h4]

/-- Everything the first `k` loads of reg-load do (R175). -/
theorem loadRegs_spec {k : Nat} (hk : k ≤ 16) :
    (∀ r : Reg, (s.loadRegs k).readV r = if r.val < k then s.readEa r.val else s.readV r) ∧
    s.loadRegs k = { s with V := (s.loadRegs k).V } := by
  induction k with
  | zero => exact ⟨by simp [loadRegs], rfl⟩
  | succ k ih =>
    obtain ⟨h1, h2⟩ := ih (by omega)
    refine ⟨fun r => ?_, ?_⟩
    · rw [loadRegs, readV_writeV, h1]
      by_cases hr : r = Fin.ofNat 16 k
      · have hv : r.val = k := by rw [hr]; simp [Fin.ofNat]; omega
        rw [if_pos hr, if_pos (by omega), hv]
      · have hv : r.val ≠ k := fun e => hr (Fin.ext (by simp [Fin.ofNat]; omega))
        have h' : r.val < k + 1 ↔ r.val < k := by omega
        rw [if_neg hr, if_congr h' rfl rfl]
    · rw [loadRegs, writeV, h2]

/-- Everything the key scan of wait-key finds (R212). -/
theorem firstPressed_cases :
    (∃ k, s.firstPressed = some k ∧ s.keyPressed k = true ∧ ∀ j, j < k → s.keyPressed j = false) ∨
    (s.firstPressed = none ∧ ∀ j, s.keyPressed j = false) := by
  cases h : s.firstPressed with
  | none =>
    refine .inr ⟨rfl, fun j => ?_⟩
    have := List.find?_eq_none.mp h j (List.mem_finRange j)
    simpa using this
  | some k =>
    refine .inl ⟨k, rfl, ?_, fun j hj => ?_⟩
    · exact List.find?_some h
    · obtain ⟨-, as, bs, hl, hn⟩ := List.find?_eq_some_iff_append.mp h
      have hs : (List.finRange 16).Pairwise (· < ·) := by decide
      rw [hl] at hs
      have hmem : j ∈ as ++ k :: bs := hl ▸ List.mem_finRange j
      rcases List.mem_append.mp hmem with hm | hm
      · simpa using hn j hm
      · rcases List.mem_cons.mp hm with rfl | hm
        · exact absurd hj (lt_irrefl _)
        · have := (List.pairwise_cons.mp (List.pairwise_append.mp hs).2.1).1 j hm
          exact absurd (lt_trans hj this) (lt_irrefl _)

end Sys2Proof.Machine.State

namespace Sys2Proof.Machine

/-- Everything a key number can be (R210, R234). -/
theorem keyOperand_cases (v : Byte) :
    (∃ k : Reg, keyOperand v = some k ∧ k.val = v.toNat) ∨ (0xF < v.toNat ∧ keyOperand v = none) := by
  unfold keyOperand
  by_cases h : v.toNat < 16
  · exact .inl ⟨⟨v.toNat, h⟩, by simp [h], rfl⟩
  · exact .inr ⟨by omega, by simp [h]⟩

end Sys2Proof.Machine
end

