-- ==== Sys2Proof/Laws/Exec.lean ====
section
/-! SUPPORT. What one handler can do, said once: it answers a next state, and it touches neither the latched opcode, the
keys, the host's schedule nor the `GLYPH_ROM`; memory stays canonical. -/

namespace Sys2Proof.Machine

-- One theorem at a time: side by side they all wait, a thread each, for one definition to be unfolded.
set_option Elab.async false

/-! ### The handlers that choose between answers -/

theorem exec_ret_pop {ign : Byte} {s t : State} {w : Word} (e : s.pop = some (w, t)) :
    exec (.ret ign) s = .next (t.setPc w) := by
  simp only [exec, execRet, e]

theorem exec_ret_empty {ign : Byte} {s : State} (e : s.pop = none) :
    exec (.ret ign) s = .next (s.enterFault .stackUnderflow (s.pc - 2)) := by
  simp only [exec, execRet, e, State.raise]

theorem exec_call_push {nnn : Addr12} {s t : State} (e : s.push s.pc = some t) :
    exec (.call nnn) s = .next (t.setPc (addrOperand nnn)) := by
  simp only [exec, execCall, e]

theorem exec_call_full {nnn : Addr12} {s : State} (e : s.push s.pc = none) :
    exec (.call nnn) s = .next (s.enterFault .stackOverflow (s.pc - 2)) := by
  simp only [exec, execCall, e, State.raise]

theorem exec_skipKey_key {x k : Reg} {ign : Nibble} {s : State} (e : keyOperand (s.readV x) = some k) :
    exec (.skipKey x ign) s = .next (s.skipIf (s.keyPressed k)) := by
  simp only [exec, execSkipKey, e]

theorem exec_skipKey_out {x : Reg} {ign : Nibble} {s : State} (e : keyOperand (s.readV x) = none) :
    exec (.skipKey x ign) s = .next (s.enterFault .keyIndexOutOfRange (s.pc - 2)) := by
  simp only [exec, execSkipKey, e, State.raise]

theorem exec_skipNkey_key {x k : Reg} {ign : Nibble} {s : State} (e : keyOperand (s.readV x) = some k) :
    exec (.skipNkey x ign) s = .next (s.skipIf (!s.keyPressed k)) := by
  simp only [exec, execSkipNkey, e]

theorem exec_skipNkey_out {x : Reg} {ign : Nibble} {s : State} (e : keyOperand (s.readV x) = none) :
    exec (.skipNkey x ign) s = .next (s.enterFault .keyIndexOutOfRange (s.pc - 2)) := by
  simp only [exec, execSkipNkey, e, State.raise]

theorem exec_waitKey_pressed {x k : Reg} {s : State} (e : s.firstPressed = some k) :
    exec (.waitKey x) s = .next (s.writeV x (BitVec.ofNat 8 k.val)) := by
  simp only [exec, execWaitKey, e]

theorem exec_waitKey_waits {x : Reg} {s : State} (e : s.firstPressed = none) :
    exec (.waitKey x) s = .next (s.setPc (s.pc - 2)) := by
  simp only [exec, execWaitKey, e]

/-- The components of the state no handler writes, and the canonical form, from `s` to `t`. -/
def KeepsHostSide (s t : State) : Prop :=
  t.latchedOpcode = s.latchedOpcode ∧ t.keyState = s.keyState ∧ t.inputs = s.inputs ∧ t.cycle = s.cycle ∧
  t.memory.glyphRom = s.memory.glyphRom ∧ (s.memory.wf = true → t.memory.wf = true)

theorem KeepsHostSide.refl (s : State) : KeepsHostSide s s := ⟨rfl, rfl, rfl, rfl, rfl, id⟩

/-- Every handler answers a next state that keeps the host's side (R104, R110). -/
theorem exec_next (i : Instr) (s : State) : ∃ t, exec i s = .next t ∧ KeepsHostSide s t := by
  cases i with
  | ret ign =>
    rcases s.pop_cases with ⟨h, e⟩ | ⟨-, e⟩
    · exact ⟨_, exec_ret_pop e, rfl, rfl, rfl, rfl, rfl, id⟩
    · exact ⟨_, exec_ret_empty e, rfl, rfl, rfl, rfl, rfl, id⟩
  | call nnn =>
    rcases s.push_cases s.pc with ⟨h, e⟩ | ⟨-, e⟩
    · exact ⟨_, exec_call_push e, rfl, rfl, rfl, rfl, rfl, id⟩
    · exact ⟨_, exec_call_full e, rfl, rfl, rfl, rfl, rfl, id⟩
  | skipKey x ign =>
    rcases keyOperand_cases (s.readV x) with ⟨k, e, -⟩ | ⟨-, e⟩
    · exact ⟨_, exec_skipKey_key e, rfl, rfl, rfl, rfl, rfl, id⟩
    · exact ⟨_, exec_skipKey_out e, rfl, rfl, rfl, rfl, rfl, id⟩
  | skipNkey x ign =>
    rcases keyOperand_cases (s.readV x) with ⟨k, e, -⟩ | ⟨-, e⟩
    · exact ⟨_, exec_skipNkey_key e, rfl, rfl, rfl, rfl, rfl, id⟩
    · exact ⟨_, exec_skipNkey_out e, rfl, rfl, rfl, rfl, rfl, id⟩
  | waitKey x =>
    rcases s.firstPressed_cases with ⟨k, e, -⟩ | ⟨e, -⟩
    · exact ⟨_, exec_waitKey_pressed e, rfl, rfl, rfl, rfl, rfl, id⟩
    · exact ⟨_, exec_waitKey_waits e, rfl, rfl, rfl, rfl, rfl, id⟩
  | bcdStore x =>
    refine ⟨_, rfl, rfl, rfl, rfl, rfl, by simp, fun h => ?_⟩
    exact State.writeEa_memory_wf _ _ _ (State.writeEa_memory_wf _ _ _ (State.writeEa_memory_wf _ _ _ h))
  | regDump x =>
    obtain ⟨-, -, h3, h4, h5⟩ := s.dumpRegs_spec (k := x.val + 1) (by omega)
    exact ⟨_, rfl, by rw [h3], by rw [h3], by rw [h3],
      by rw [h3], h4, h5⟩
  | regLoad x =>
    obtain ⟨-, h⟩ := s.loadRegs_spec (k := x.val + 1) (by omega)
    exact ⟨_, rfl, by rw [h], by rw [h], by rw [h],
      by rw [h], by rw [h], fun hw => by rw [h]; exact hw⟩
  | _ => exact ⟨_, rfl, rfl, rfl, rfl, rfl, rfl, id⟩

end Sys2Proof.Machine
end

