-- ==== Sys2Proof/Laws/Cycle.lean ====
section
/-! SUPPORT. What one cycle and one step can do, said once (R100, R235). -/

namespace Sys2Proof.Machine

/-- The fetch check, in numbers (R56). -/
theorem fetchInRange_iff (pc : Word) : fetchInRange pc = true ↔ pc.toNat < 0xFFF := by
  simp only [fetchInRange, decide_eq_true_eq]; omega

/-- A faulted core: nothing changes (R109). -/
theorem runOneCycle_faulted {s : State} {k : Fault} {p : Word} (h : s.fault = .faulted k p) :
    runOneCycle s = .next s := by
  simp only [runOneCycle, h]

/-- A fetch out of range: the fault and nothing else (R233, R236). -/
theorem runOneCycle_outOfRange {s : State} (h : s.fault = .none) (hp : 0xFFF ≤ s.pc.toNat) :
    runOneCycle s = .next (s.enterFault .fetchOutOfRange s.pc) := by
  have hf : fetchInRange s.pc = false := by
    rw [Bool.eq_false_iff, Ne, fetchInRange_iff]; omega
  simp only [runOneCycle, h, hf, Bool.false_eq_true, if_false]

/-- A cycle that fetches: the decoded instruction's handler, and the end of the cycle (R100). -/
theorem runOneCycle_runs {s : State} (h : s.fault = .none) (hp : s.pc.toNat < 0xFFF) :
    runOneCycle s = finishCycle s (exec (decodeWord s.fetchWord) s.latchAndAdvance) := by
  have hf : fetchInRange s.pc = true := (fetchInRange_iff _).mpr hp
  simp only [runOneCycle, h, hf, if_true, State.latchAndAdvance_latchedOpcode]

/-- Everything a cycle can do. -/
theorem runOneCycle_cases (s : State) :
    (∃ k p, s.fault = .faulted k p ∧ runOneCycle s = .next s) ∨
    (s.fault = .none ∧ 0xFFF ≤ s.pc.toNat ∧ runOneCycle s = .next (s.enterFault .fetchOutOfRange s.pc)) ∨
    (s.fault = .none ∧ s.pc.toNat < 0xFFF ∧ ∃ t, exec (decodeWord s.fetchWord) s.latchAndAdvance = .next t ∧
      KeepsHostSide s.latchAndAdvance t ∧ runOneCycle s = .next (s.endHandler t)) := by
  cases hf : s.fault with
  | faulted k p => exact .inl ⟨k, p, rfl, runOneCycle_faulted hf⟩
  | none =>
    by_cases hp : 0xFFF ≤ s.pc.toNat
    · exact .inr (.inl ⟨rfl, hp, runOneCycle_outOfRange hf hp⟩)
    · obtain ⟨t, ht, hk⟩ := exec_next (decodeWord s.fetchWord) s.latchAndAdvance
      refine .inr (.inr ⟨rfl, by omega, t, ht, hk, ?_⟩)
      rw [runOneCycle_runs hf (by omega), ht]; rfl

/-- A step is a cycle and then the host's turn. -/
theorem step_of_cycle {s t : State} (h : runOneCycle s = .next t) : step s = .next t.hostTurn := by
  simp only [step, cycleThenHost, h]

/-- A cycle keeps memory canonical. -/
theorem endHandler_memory_wf {s t : State} (hs : s.memory.wf = true) (ht : t.memory.wf = true) :
    (s.endHandler t).memory.wf = true := by
  unfold State.endHandler
  split
  · exact ht
  · exact hs

end Sys2Proof.Machine
end

