-- ==== Sys2Proof/Laws/Display.lean ====
section
/-! SUPPORT. The laws of the framebuffer, and the whole draw in closed form: which cells it toggles and when the detector
reports a collision. -/

namespace Sys2Proof.Machine

namespace Framebuffer

/-- A cell after a cell is written: the value, if it is that cell and inside the bounds (R194). -/
theorem lit_put (f : Framebuffer) (col row : Nat) (v : Bool) (c r : Nat) :
    Framebuffer.lit (Framebuffer.put f col row v) c r =
      if c = col ∧ r = row ∧ inBounds col row then v else Framebuffer.lit f c r := by
  unfold Framebuffer.put
  by_cases h : col < 64 ∧ row < 32
  · have hb : inBounds col row = true := by simp [inBounds, h]
    rw [dif_pos h]
    unfold Framebuffer.lit
    by_cases hc : c < 64 ∧ r < 32
    · rw [dif_pos hc, dif_pos hc]
      by_cases hr : r = row
      · subst hr
        by_cases hcc : c = col
        · subst hcc; simp [hb]
        · have : col ≠ c := fun e => hcc e.symm
          simp [hcc, this]
      · have : row ≠ r := fun e => hr e.symm
        simp [hr, this]
    · rw [dif_neg hc, dif_neg hc]
      rw [if_neg]
      rintro ⟨rfl, rfl, _⟩
      exact hc h
  · rw [dif_neg h]
    rw [if_neg]
    rintro ⟨_, _, hb⟩
    simp only [inBounds, Bool.and_eq_true, decide_eq_true_eq] at hb
    exact h hb

/-- No cell is lit outside the bounds. -/
theorem lit_outside (f : Framebuffer) {c r : Nat} (h : inBounds c r = false) : Framebuffer.lit f c r = false := by
  unfold Framebuffer.lit
  rw [dif_neg]
  rintro ⟨hc, hr⟩
  simp [inBounds, hc, hr] at h

/-- Two framebuffers with the same cells are equal. -/
theorem ext_lit {f g : Framebuffer} (h : ∀ c r, Framebuffer.lit f c r = Framebuffer.lit g c r) : f = g := by
  apply Vector.ext
  intro r hr
  apply Vector.ext
  intro c hc
  have := h c r
  simpa [Framebuffer.lit, hc, hr] using this

/-- A cleared screen has no lit cell (R191). -/
@[simp] theorem lit_blank (c r : Nat) : Framebuffer.lit blankFramebuffer c r = false := by
  unfold Framebuffer.lit blankFramebuffer
  split <;> simp

end Framebuffer

namespace Canvas

/-- Everything a plot does to a cell. -/
theorem plot_lit (c : Canvas) (col row cc rr : Nat) :
    Framebuffer.lit (c.plot col row).fb cc rr =
      (Framebuffer.lit c.fb cc rr ^^ (decide (cc = col) && decide (rr = row) && inBounds cc rr)) := by
  unfold plot
  by_cases hb : inBounds col row = true
  · rw [if_pos hb]
    simp only [Framebuffer.lit_put, hb]
    by_cases h : cc = col ∧ rr = row
    · obtain ⟨rfl, rfl⟩ := h; simp [hb]
    · rw [if_neg (by simpa using h)]
      rcases Decidable.not_and_iff_or_not.mp h with h | h <;> simp [h]
  · rw [if_neg hb]
    by_cases h : cc = col ∧ rr = row
    · obtain ⟨rfl, rfl⟩ := h; simp [hb]
    · rcases Decidable.not_and_iff_or_not.mp h with h | h <;> simp [h]

/-- What a plot does to the detector. -/
theorem plot_collision (c : Canvas) (col row : Nat) :
    (c.plot col row).collision = (c.collision || Framebuffer.lit c.fb col row) := by
  unfold plot
  by_cases hb : inBounds col row = true
  · rw [if_pos hb]
  · rw [if_neg hb, Framebuffer.lit_outside _ (by simpa using hb), Bool.or_false]

/-- The bit of a row byte that falls on a column, of the first `k` pixels. -/
def byteBit (b : Byte) (x0 k col : Nat) : Bool := decide (x0 ≤ col ∧ col < x0 + k) && b.getLsbD (7 - (col - x0))

theorem byteBit_zero (b : Byte) (x0 col : Nat) : byteBit b x0 0 col = false := by
  simp only [byteBit, Bool.and_eq_false_iff, decide_eq_false_iff_not]
  left; omega

theorem byteBit_succ (b : Byte) (x0 k col : Nat) :
    byteBit b x0 (k + 1) col = (byteBit b x0 k col || (decide (col = x0 + k) && b.getLsbD (7 - k))) := by
  unfold byteBit
  by_cases h : col = x0 + k
  · subst h
    simp
  · have : (x0 ≤ col ∧ col < x0 + (k + 1)) ↔ (x0 ≤ col ∧ col < x0 + k) := by omega
    simp [h, this]

theorem byteBit_fresh (b : Byte) (x0 k : Nat) : byteBit b x0 k (x0 + k) = false := by
  simp [byteBit]

/-- The first `k` pixels of a row, in closed form (R190, R194). -/
theorem drawByte_spec (c : Canvas) (b : Byte) (x0 row : Nat) (k : Nat) :
    (∀ cc rr, Framebuffer.lit (c.drawByte b x0 row k).fb cc rr =
      (Framebuffer.lit c.fb cc rr ^^ (decide (rr = row) && byteBit b x0 k cc && inBounds cc rr))) ∧
    ((c.drawByte b x0 row k).collision = true ↔ c.collision = true ∨
      ∃ cc, byteBit b x0 k cc = true ∧ Framebuffer.lit c.fb cc row = true) := by
  induction k with
  | zero => simp [drawByte, byteBit_zero]
  | succ k ih =>
    obtain ⟨ih1, ih2⟩ := ih
    simp only [drawByte]
    by_cases hbit : b.getLsbD (7 - k) = true
    · rw [if_pos hbit]
      constructor
      · intro cc rr
        rw [plot_lit, ih1, byteBit_succ, hbit]
        by_cases hc : cc = x0 + k
        · subst hc
          simp [byteBit_fresh]
        · simp [hc]
      · rw [plot_collision, Bool.or_eq_true, ih2, ih1]
        simp only [byteBit_succ, byteBit_fresh, hbit]
        constructor
        · rintro ((h | ⟨cc, h1, h2⟩) | h)
          · exact .inl h
          · exact .inr ⟨cc, by simp [h1], h2⟩
          · exact .inr ⟨x0 + k, by simp, by simpa using h⟩
        · rintro (h | ⟨cc, h1, h2⟩)
          · exact .inl (.inl h)
          · simp only [Bool.and_true, Bool.or_eq_true, decide_eq_true_eq] at h1
            rcases h1 with h1 | rfl
            · exact .inl (.inr ⟨cc, h1, h2⟩)
            · exact .inr (by simpa using h2)
    · rw [if_neg hbit]
      have hb : b.getLsbD (7 - k) = false := by simpa using hbit
      simp only [byteBit_succ, hb, Bool.and_false, Bool.or_false]
      exact ⟨ih1, ih2⟩

end Canvas

namespace State

variable (s : State)

/-- A sprite's bit, by its row byte. -/
theorem spriteBit_eq (x0 y0 n col row : Nat) :
    s.spriteBit x0 y0 n col row =
      (decide (y0 ≤ row ∧ row < y0 + n) && Canvas.byteBit (s.readEa (row - y0)) x0 8 col) := by
  unfold spriteBit Canvas.byteBit
  by_cases h1 : x0 ≤ col ∧ col < x0 + 8 <;> by_cases h2 : y0 ≤ row ∧ row < y0 + n
  · simp [h1, h2]
  · have : ¬ (x0 ≤ col ∧ col < x0 + 8 ∧ y0 ≤ row ∧ row < y0 + n) := by tauto
    simp [h2]
  · have : ¬ (x0 ≤ col ∧ col < x0 + 8 ∧ y0 ≤ row ∧ row < y0 + n) := by tauto
    simp [h1, this]
  · have : ¬ (x0 ≤ col ∧ col < x0 + 8 ∧ y0 ≤ row ∧ row < y0 + n) := by tauto
    simp [h1, this]

/-- The first `k` rows of a sprite, in closed form: a cell is toggled exactly where a sprite bit falls inside the
bounds, and the detector reports exactly a sprite bit on a lit cell (R192, R193, R194). -/
theorem drawRows_spec (x0 y0 : Nat) (c : Canvas) (k : Nat) :
    (∀ cc rr, Framebuffer.lit (s.drawRows x0 y0 c k).fb cc rr =
      (Framebuffer.lit c.fb cc rr ^^ (s.spriteBit x0 y0 k cc rr && inBounds cc rr))) ∧
    ((s.drawRows x0 y0 c k).collision = true ↔ c.collision = true ∨
      ∃ cc rr, s.spriteBit x0 y0 k cc rr = true ∧ Framebuffer.lit c.fb cc rr = true) := by
  induction k with
  | zero =>
    have h0 : ∀ cc rr, s.spriteBit x0 y0 0 cc rr = false := by
      intro cc rr
      simp only [spriteBit, Bool.and_eq_false_iff, decide_eq_false_iff_not]
      left; omega
    simp [drawRows, h0]
  | succ k ih =>
    obtain ⟨ih1, ih2⟩ := ih
    obtain ⟨d1, d2⟩ := Canvas.drawByte_spec (s.drawRows x0 y0 c k) (s.readEa k) x0 (y0 + k) 8
    have hs : ∀ cc rr, s.spriteBit x0 y0 (k + 1) cc rr =
        (s.spriteBit x0 y0 k cc rr || (decide (rr = y0 + k) && Canvas.byteBit (s.readEa k) x0 8 cc)) := by
      intro cc rr
      rw [spriteBit_eq, spriteBit_eq]
      by_cases hr : rr = y0 + k
      · subst hr; simp
      · have : (y0 ≤ rr ∧ rr < y0 + (k + 1)) ↔ (y0 ≤ rr ∧ rr < y0 + k) := by omega
        simp [hr, this]
    have hf : ∀ cc, s.spriteBit x0 y0 k cc (y0 + k) = false := by
      intro cc
      rw [spriteBit_eq]; simp
    simp only [drawRows]
    constructor
    · intro cc rr
      rw [d1, ih1, hs]
      by_cases hr : rr = y0 + k
      · subst hr; simp [hf]
      · simp [hr]
    · rw [d2, ih2]
      constructor
      · rintro ((h | ⟨cc, rr, h1, h2⟩) | ⟨cc, h1, h2⟩)
        · exact .inl h
        · exact .inr ⟨cc, rr, by simp [hs, h1], h2⟩
        · exact .inr ⟨cc, y0 + k, by simp [hs, h1], by simpa [ih1, hf] using h2⟩
      · rintro (h | ⟨cc, rr, h1, h2⟩)
        · exact .inl (.inl h)
        · rw [hs, Bool.or_eq_true] at h1
          rcases h1 with h1 | h1
          · exact .inl (.inr ⟨cc, rr, h1, h2⟩)
          · simp only [Bool.and_eq_true, decide_eq_true_eq] at h1
            obtain ⟨rfl, h1⟩ := h1
            exact .inr ⟨cc, h1, by simpa [ih1, hf] using h2⟩

end State

end Sys2Proof.Machine
end

