-- ==== Sys2Proof/Laws/Encoding.lean ====
section
/-! SUPPORT. The fields of each layout of R72, read back (R71). -/

namespace Sys2Proof

/-! ### Words and fields as numbers -/

theorem toNat_append_eq {n m : Nat} (a : BitVec n) (b : BitVec m) : (a ++ b).toNat = a.toNat * 2 ^ m + b.toNat := by
  rw [BitVec.toNat_append, ← Nat.shiftLeft_add_eq_or_of_lt b.isLt, Nat.shiftLeft_eq]

/-- A fetched word as a number: big-endian (R52). -/
theorem wordOfBytes_toNat (hi lo : Byte) : (wordOfBytes hi lo).toNat = hi.toNat * 256 + lo.toNat :=
  toNat_append_eq hi lo

@[simp] theorem nibbleOfReg_toNat (r : Reg) : (nibbleOfReg r).toNat = r.val := by
  simp [nibbleOfReg]

@[simp] theorem regOfNibble_nibbleOfReg (r : Reg) : regOfNibble (nibbleOfReg r) = r := by
  apply Fin.ext
  simp [regOfNibble]

@[simp] theorem nibbleOfReg_regOfNibble (b : Nibble) : nibbleOfReg (regOfNibble b) = b := by
  simp [regOfNibble, nibbleOfReg]

theorem formatZ_toNat (m : Byte) (s : Nibble) : (formatZ m s).toNat = m.toNat * 16 + s.toNat := by
  have h : (formatZ m s).toNat = (0x0#4 ++ m ++ s).toNat := rfl
  rw [h, toNat_append_eq, toNat_append_eq]; simp

theorem formatA_toNat (t : Nibble) (nnn : Addr12) : (formatA t nnn).toNat = t.toNat * 4096 + nnn.toNat :=
  toNat_append_eq t nnn

theorem formatXK_toNat (t : Nibble) (x : Reg) (kk : Byte) :
    (formatXK t x kk).toNat = t.toNat * 4096 + x.val * 256 + kk.toNat := by
  have h : (formatXK t x kk).toNat = (t ++ nibbleOfReg x ++ kk).toNat := rfl
  rw [h, toNat_append_eq, toNat_append_eq, nibbleOfReg_toNat]
  omega

theorem formatXYS_toNat (t : Nibble) (x y : Reg) (s : Nibble) :
    (formatXYS t x y s).toNat = t.toNat * 4096 + x.val * 256 + y.val * 16 + s.toNat := by
  have h : (formatXYS t x y s).toNat = (t ++ nibbleOfReg x ++ nibbleOfReg y ++ s).toNat := rfl
  rw [h, toNat_append_eq, toNat_append_eq, toNat_append_eq, nibbleOfReg_toNat, nibbleOfReg_toNat]
  omega

theorem formatXS4_toNat (x : Reg) (ign s : Nibble) :
    (formatXS4 x ign s).toNat = 0xE * 4096 + x.val * 256 + ign.toNat * 16 + s.toNat := by
  have h : (formatXS4 x ign s).toNat = (0xE#4 ++ nibbleOfReg x ++ ign ++ s).toNat := rfl
  rw [h, toNat_append_eq, toNat_append_eq, toNat_append_eq, nibbleOfReg_toNat]
  have : (0xE#4).toNat = 0xE := rfl
  omega

theorem fieldT_toNat (w : Word) : (fieldT w).toNat = w.toNat / 4096 := by
  have := w.isLt
  simp only [fieldT, BitVec.extractLsb'_toNat, Nat.shiftRight_eq_div_pow]
  omega

theorem fieldNnn_toNat (w : Word) : (fieldNnn w).toNat = w.toNat % 4096 := by
  simp only [fieldNnn, BitVec.extractLsb'_toNat, Nat.shiftRight_eq_div_pow]
  omega

theorem fieldX_val (w : Word) : (fieldX w).val = w.toNat / 256 % 16 := by
  simp only [fieldX, regOfNibble, BitVec.extractLsb'_toNat, Nat.shiftRight_eq_div_pow]

theorem fieldY_val (w : Word) : (fieldY w).val = w.toNat / 16 % 16 := by
  simp only [fieldY, regOfNibble, BitVec.extractLsb'_toNat, Nat.shiftRight_eq_div_pow]

theorem fieldKk_toNat (w : Word) : (fieldKk w).toNat = w.toNat % 256 := by
  simp only [fieldKk, BitVec.extractLsb'_toNat, Nat.shiftRight_eq_div_pow]
  omega

theorem fieldS4_toNat (w : Word) : (fieldS4 w).toNat = w.toNat % 16 := by
  simp only [fieldS4, BitVec.extractLsb'_toNat, Nat.shiftRight_eq_div_pow]
  omega

theorem fieldN_val (w : Word) : (fieldN w).val = w.toNat % 16 := by
  simp only [fieldN, BitVec.extractLsb'_toNat, Nat.shiftRight_eq_div_pow]
  omega

theorem fieldMid_toNat (w : Word) : (fieldMid w).toNat = w.toNat / 16 % 256 := by
  simp only [fieldMid, BitVec.extractLsb'_toNat, Nat.shiftRight_eq_div_pow]

theorem fieldB4_toNat (w : Word) : (fieldB4 w).toNat = w.toNat / 16 % 16 := by
  simp only [fieldB4, BitVec.extractLsb'_toNat, Nat.shiftRight_eq_div_pow]

/-! ### The fields of each layout -/

@[simp] theorem formatZ_fieldT (m : Byte) (s : Nibble) : fieldT (formatZ m s) = 0x0 := by
  apply BitVec.eq_of_toNat_eq
  have := m.isLt; have := s.isLt
  rw [fieldT_toNat, formatZ_toNat]
  simp
  omega

@[simp] theorem formatZ_fieldMid (m : Byte) (s : Nibble) : fieldMid (formatZ m s) = m := by
  apply BitVec.eq_of_toNat_eq
  have := m.isLt; have := s.isLt
  rw [fieldMid_toNat, formatZ_toNat]
  omega

@[simp] theorem formatZ_fieldS4 (m : Byte) (s : Nibble) : fieldS4 (formatZ m s) = s := by
  apply BitVec.eq_of_toNat_eq
  have := m.isLt; have := s.isLt
  rw [fieldS4_toNat, formatZ_toNat]
  omega

@[simp] theorem formatA_fieldT (t : Nibble) (nnn : Addr12) : fieldT (formatA t nnn) = t := by
  apply BitVec.eq_of_toNat_eq
  have := t.isLt; have := nnn.isLt
  rw [fieldT_toNat, formatA_toNat]
  omega

@[simp] theorem formatA_fieldNnn (t : Nibble) (nnn : Addr12) : fieldNnn (formatA t nnn) = nnn := by
  apply BitVec.eq_of_toNat_eq
  have := t.isLt; have := nnn.isLt
  rw [fieldNnn_toNat, formatA_toNat]
  omega

@[simp] theorem formatXK_fieldT (t : Nibble) (x : Reg) (kk : Byte) : fieldT (formatXK t x kk) = t := by
  apply BitVec.eq_of_toNat_eq
  have := t.isLt; have := x.isLt; have := kk.isLt
  rw [fieldT_toNat, formatXK_toNat]
  omega

@[simp] theorem formatXK_fieldX (t : Nibble) (x : Reg) (kk : Byte) : fieldX (formatXK t x kk) = x := by
  apply Fin.ext
  have := t.isLt; have := x.isLt; have := kk.isLt
  rw [fieldX_val, formatXK_toNat]
  omega

@[simp] theorem formatXK_fieldKk (t : Nibble) (x : Reg) (kk : Byte) : fieldKk (formatXK t x kk) = kk := by
  apply BitVec.eq_of_toNat_eq
  have := t.isLt; have := x.isLt; have := kk.isLt
  rw [fieldKk_toNat, formatXK_toNat]
  omega

@[simp] theorem formatXYS_fieldT (t : Nibble) (x y : Reg) (s : Nibble) : fieldT (formatXYS t x y s) = t := by
  apply BitVec.eq_of_toNat_eq
  have := t.isLt; have := x.isLt; have := y.isLt; have := s.isLt
  rw [fieldT_toNat, formatXYS_toNat]
  omega

@[simp] theorem formatXYS_fieldX (t : Nibble) (x y : Reg) (s : Nibble) : fieldX (formatXYS t x y s) = x := by
  apply Fin.ext
  have := t.isLt; have := x.isLt; have := y.isLt; have := s.isLt
  rw [fieldX_val, formatXYS_toNat]
  omega

@[simp] theorem formatXYS_fieldY (t : Nibble) (x y : Reg) (s : Nibble) : fieldY (formatXYS t x y s) = y := by
  apply Fin.ext
  have := t.isLt; have := x.isLt; have := y.isLt; have := s.isLt
  rw [fieldY_val, formatXYS_toNat]
  omega

@[simp] theorem formatXYS_fieldS4 (t : Nibble) (x y : Reg) (s : Nibble) : fieldS4 (formatXYS t x y s) = s := by
  apply BitVec.eq_of_toNat_eq
  have := t.isLt; have := x.isLt; have := y.isLt; have := s.isLt
  rw [fieldS4_toNat, formatXYS_toNat]
  omega

@[simp] theorem formatXYS_fieldN (t : Nibble) (x y : Reg) (s : Nibble) : fieldN (formatXYS t x y s) = ⟨s.toNat, s.isLt⟩ := by
  apply Fin.ext
  have := t.isLt; have := x.isLt; have := y.isLt; have := s.isLt
  rw [fieldN_val, formatXYS_toNat]
  simp only []
  omega

@[simp] theorem formatXS4_fieldT (x : Reg) (ign s : Nibble) : fieldT (formatXS4 x ign s) = 0xE := by
  apply BitVec.eq_of_toNat_eq
  have := x.isLt; have := ign.isLt; have := s.isLt
  rw [fieldT_toNat, formatXS4_toNat]
  simp
  omega

@[simp] theorem formatXS4_fieldX (x : Reg) (ign s : Nibble) : fieldX (formatXS4 x ign s) = x := by
  apply Fin.ext
  have := x.isLt; have := ign.isLt; have := s.isLt
  rw [fieldX_val, formatXS4_toNat]
  omega

@[simp] theorem formatXS4_fieldB4 (x : Reg) (ign s : Nibble) : fieldB4 (formatXS4 x ign s) = ign := by
  apply BitVec.eq_of_toNat_eq
  have := x.isLt; have := ign.isLt; have := s.isLt
  rw [fieldB4_toNat, formatXS4_toNat]
  omega

@[simp] theorem formatXS4_fieldS4 (x : Reg) (ign s : Nibble) : fieldS4 (formatXS4 x ign s) = s := by
  apply BitVec.eq_of_toNat_eq
  have := x.isLt; have := ign.isLt; have := s.isLt
  rw [fieldS4_toNat, formatXS4_toNat]
  omega

/-! ### The second level, by the top nibble -/

theorem decodeWord_top0 {w : Word} (h : fieldT w = 0x0) : decodeWord w = decodeTop0 w := by
  simp only [decodeWord, h]; rfl

theorem decodeWord_top8 {w : Word} (h : fieldT w = 0x8) : decodeWord w = decodeTop8 w := by
  simp only [decodeWord, h]; rfl

theorem decodeWord_topE {w : Word} (h : fieldT w = 0xE) : decodeWord w = decodeTopE w := by
  simp only [decodeWord, h]; rfl

theorem decodeWord_topF {w : Word} (h : fieldT w = 0xF) : decodeWord w = decodeTopF w := by
  simp only [decodeWord, h]; rfl

/-! ### A word from its fields -/

theorem formatXK_of_fields (w : Word) : formatXK (fieldT w) (fieldX w) (fieldKk w) = w := by
  apply BitVec.eq_of_toNat_eq; have := w.isLt
  rw [formatXK_toNat, fieldT_toNat, fieldX_val, fieldKk_toNat]; omega

theorem formatXYS_of_fields (w : Word) : formatXYS (fieldT w) (fieldX w) (fieldY w) (fieldS4 w) = w := by
  apply BitVec.eq_of_toNat_eq; have := w.isLt
  rw [formatXYS_toNat, fieldT_toNat, fieldX_val, fieldY_val, fieldS4_toNat]; omega

theorem formatA_of_fields (w : Word) : formatA (fieldT w) (fieldNnn w) = w := by
  apply BitVec.eq_of_toNat_eq; have := w.isLt
  rw [formatA_toNat, fieldT_toNat, fieldNnn_toNat]; omega

theorem formatZ_of_fields {w : Word} (h : (fieldT w).toNat = 0x0) : formatZ (fieldMid w) (fieldS4 w) = w := by
  apply BitVec.eq_of_toNat_eq; have := w.isLt
  rw [fieldT_toNat] at h
  rw [formatZ_toNat, fieldMid_toNat, fieldS4_toNat]; omega

theorem formatXS4_of_fields {w : Word} (h : (fieldT w).toNat = 0xE) :
    formatXS4 (fieldX w) (fieldB4 w) (fieldS4 w) = w := by
  apply BitVec.eq_of_toNat_eq; have := w.isLt
  rw [fieldT_toNat] at h
  rw [formatXS4_toNat, fieldX_val, fieldB4_toNat, fieldS4_toNat]; omega

theorem ofNat_fieldN (w : Word) : BitVec.ofNat 4 (fieldN w).val = fieldS4 w := by
  apply BitVec.eq_of_toNat_eq
  rw [fieldS4_toNat, BitVec.toNat_ofNat, fieldN_val]; omega

end Sys2Proof
end

