-- ==== Sys2Proof/Laws/Faults.lean ====
section
/-! SUPPORT. What decides the fault of the coming cycle (R230). -/

namespace Sys2Proof.Machine.State

/-- Only `pc`, memory, `sp` and the general registers decide whether the coming cycle faults. -/
theorem nextFault_congr {s t : State} (hpc : t.pc = s.pc) (hm : t.memory = s.memory) (hsp : t.sp = s.sp)
    (hV : t.V = s.V) : t.nextFault = s.nextFault := by
  have hr : t.readV = s.readV := funext fun r => by simp only [readV, hV]
  have hw : t.fetchWord = s.fetchWord := by simp only [fetchWord, readMem, hpc, hm]
  have hh : t.handlerFault = s.handlerFault := funext fun i => by cases i <;> simp only [handlerFault, hr, hsp]
  simp only [nextFault, hpc, hw, hh]

end Sys2Proof.Machine.State
end

