-- ==== Sys2Proof/Laws/PerInstr.lean ====
section
/-! SUPPORT. The family EncodeDecode: for each constructor, decoding the word of a well-formed term gives the term
back (R71 to R79). -/

namespace Sys2Proof.Laws.EncodeDecode

-- One theorem at a time: side by side they all wait, a thread each, for one definition to be unfolded.
set_option Elab.async false

/-- A well-formed instruction is what its word decodes to. -/
def Statement (i : Instr) : Prop := i.wellFormed = true → decodeWord (encode i) = i

theorem clearScreen (ign : Byte) : Statement (.clearScreen ign) := by
  intro _
  rw [encode, decodeWord_top0 (by simp)]
  simp [decodeTop0]

theorem ret (ign : Byte) : Statement (.ret ign) := by
  intro _
  rw [encode, decodeWord_top0 (by simp)]
  simp [decodeTop0]

theorem jump (nnn : Addr12) : Statement (.jump nnn) := by
  intro _
  simp [encode, decodeWord]

theorem call (nnn : Addr12) : Statement (.call nnn) := by
  intro _
  simp [encode, decodeWord]

theorem skipEqImm (x : Reg) (kk : Byte) : Statement (.skipEqImm x kk) := by
  intro _
  simp [encode, decodeWord]

theorem skipNeImm (x : Reg) (kk : Byte) : Statement (.skipNeImm x kk) := by
  intro _
  simp [encode, decodeWord]

theorem skipEqReg (x : Reg) (y : Reg) (ign : Nibble) : Statement (.skipEqReg x y ign) := by
  intro _
  simp [encode, decodeWord]

theorem loadImm (x : Reg) (kk : Byte) : Statement (.loadImm x kk) := by
  intro _
  simp [encode, decodeWord]

theorem addImm (x : Reg) (kk : Byte) : Statement (.addImm x kk) := by
  intro _
  simp [encode, decodeWord]

theorem move (x : Reg) (y : Reg) : Statement (.move x y) := by
  intro _
  rw [encode, decodeWord_top8 (by simp)]
  simp [decodeTop8]

theorem orReg (x : Reg) (y : Reg) : Statement (.orReg x y) := by
  intro _
  rw [encode, decodeWord_top8 (by simp)]
  simp [decodeTop8]

theorem andReg (x : Reg) (y : Reg) : Statement (.andReg x y) := by
  intro _
  rw [encode, decodeWord_top8 (by simp)]
  simp [decodeTop8]

theorem xorReg (x : Reg) (y : Reg) : Statement (.xorReg x y) := by
  intro _
  rw [encode, decodeWord_top8 (by simp)]
  simp [decodeTop8]

theorem addReg (x : Reg) (y : Reg) : Statement (.addReg x y) := by
  intro _
  rw [encode, decodeWord_top8 (by simp)]
  simp [decodeTop8]

theorem subReg (x : Reg) (y : Reg) : Statement (.subReg x y) := by
  intro _
  rw [encode, decodeWord_top8 (by simp)]
  simp [decodeTop8]

theorem shr (x : Reg) (y : Reg) : Statement (.shr x y) := by
  intro _
  rw [encode, decodeWord_top8 (by simp)]
  simp [decodeTop8]

theorem subnReg (x : Reg) (y : Reg) : Statement (.subnReg x y) := by
  intro _
  rw [encode, decodeWord_top8 (by simp)]
  simp [decodeTop8]

theorem shl (x : Reg) (y : Reg) : Statement (.shl x y) := by
  intro _
  rw [encode, decodeWord_top8 (by simp)]
  simp [decodeTop8]

theorem skipNeReg (x : Reg) (y : Reg) (ign : Nibble) : Statement (.skipNeReg x y ign) := by
  intro _
  simp [encode, decodeWord]

theorem setIndex (nnn : Addr12) : Statement (.setIndex nnn) := by
  intro _
  simp [encode, decodeWord]

theorem jumpOffset (nnn : Addr12) : Statement (.jumpOffset nnn) := by
  intro _
  simp [encode, decodeWord]

theorem random (x : Reg) (kk : Byte) : Statement (.random x kk) := by
  intro _
  simp [encode, decodeWord]

theorem draw (x : Reg) (y : Reg) (n : Fin 16) : Statement (.draw x y n) := by
  intro _
  simp [encode, decodeWord]

theorem skipKey (x : Reg) (ign : Nibble) : Statement (.skipKey x ign) := by
  intro _
  rw [encode, decodeWord_topE (by simp)]
  simp [decodeTopE]

theorem skipNkey (x : Reg) (ign : Nibble) : Statement (.skipNkey x ign) := by
  intro _
  rw [encode, decodeWord_topE (by simp)]
  simp [decodeTopE]

theorem getDelay (x : Reg) : Statement (.getDelay x) := by
  intro _
  rw [encode, decodeWord_topF (by simp)]
  simp [decodeTopF]

theorem waitKey (x : Reg) : Statement (.waitKey x) := by
  intro _
  rw [encode, decodeWord_topF (by simp)]
  simp [decodeTopF]

theorem setDelay (x : Reg) : Statement (.setDelay x) := by
  intro _
  rw [encode, decodeWord_topF (by simp)]
  simp [decodeTopF]

theorem setSound (x : Reg) : Statement (.setSound x) := by
  intro _
  rw [encode, decodeWord_topF (by simp)]
  simp [decodeTopF]

theorem addIndex (x : Reg) : Statement (.addIndex x) := by
  intro _
  rw [encode, decodeWord_topF (by simp)]
  simp [decodeTopF]

theorem glyphAddr (x : Reg) : Statement (.glyphAddr x) := by
  intro _
  rw [encode, decodeWord_topF (by simp)]
  simp [decodeTopF]

theorem bcdStore (x : Reg) : Statement (.bcdStore x) := by
  intro _
  rw [encode, decodeWord_topF (by simp)]
  simp [decodeTopF]

theorem regDump (x : Reg) : Statement (.regDump x) := by
  intro _
  rw [encode, decodeWord_topF (by simp)]
  simp [decodeTopF]

theorem regLoad (x : Reg) : Statement (.regLoad x) := by
  intro _
  rw [encode, decodeWord_topF (by simp)]
  simp [decodeTopF]

theorem nopSys (ign : Byte) (s4 : Nibble) : Statement (.nopSys ign s4) := by
  intro h
  have hw : ∀ k : Nibble, (unassignedSys k) = false → s4 ≠ k := by
    rintro k hk rfl
    simp [Instr.wellFormed, hk] at h
  rw [encode, decodeWord_top0 (by simp)]
  unfold decodeTop0
  split <;> rename_i hk
  · exact absurd (BitVec.eq_of_toNat_eq (by simpa using hk)) (hw 0x0 (by decide))
  · exact absurd (BitVec.eq_of_toNat_eq (by simpa using hk)) (hw 0xE (by decide))
  · simp

theorem nopAlu (x : Reg) (y : Reg) (s4 : Nibble) : Statement (.nopAlu x y s4) := by
  intro h
  have hw : ∀ k : Nibble, (unassignedAlu k) = false → s4 ≠ k := by
    rintro k hk rfl
    simp [Instr.wellFormed, hk] at h
  rw [encode, decodeWord_top8 (by simp)]
  unfold decodeTop8
  split <;> rename_i hk
  · exact absurd (BitVec.eq_of_toNat_eq (by simpa using hk)) (hw 0x0 (by decide))
  · exact absurd (BitVec.eq_of_toNat_eq (by simpa using hk)) (hw 0x1 (by decide))
  · exact absurd (BitVec.eq_of_toNat_eq (by simpa using hk)) (hw 0x2 (by decide))
  · exact absurd (BitVec.eq_of_toNat_eq (by simpa using hk)) (hw 0x3 (by decide))
  · exact absurd (BitVec.eq_of_toNat_eq (by simpa using hk)) (hw 0x4 (by decide))
  · exact absurd (BitVec.eq_of_toNat_eq (by simpa using hk)) (hw 0x5 (by decide))
  · exact absurd (BitVec.eq_of_toNat_eq (by simpa using hk)) (hw 0x6 (by decide))
  · exact absurd (BitVec.eq_of_toNat_eq (by simpa using hk)) (hw 0x7 (by decide))
  · exact absurd (BitVec.eq_of_toNat_eq (by simpa using hk)) (hw 0xE (by decide))
  · simp

theorem nopKey (x : Reg) (ign : Nibble) (s4 : Nibble) : Statement (.nopKey x ign s4) := by
  intro h
  have hw : ∀ k : Nibble, (unassignedKey k) = false → s4 ≠ k := by
    rintro k hk rfl
    simp [Instr.wellFormed, hk] at h
  rw [encode, decodeWord_topE (by simp)]
  unfold decodeTopE
  split <;> rename_i hk
  · exact absurd (BitVec.eq_of_toNat_eq (by simpa using hk)) (hw 0xE (by decide))
  · exact absurd (BitVec.eq_of_toNat_eq (by simpa using hk)) (hw 0x1 (by decide))
  · simp

theorem nopMisc (x : Reg) (s8 : Byte) : Statement (.nopMisc x s8) := by
  intro h
  have hw : ∀ k : Byte, (unassignedMisc k) = false → s8 ≠ k := by
    rintro k hk rfl
    simp [Instr.wellFormed, hk] at h
  rw [encode, decodeWord_topF (by simp)]
  unfold decodeTopF
  split <;> rename_i hk
  · exact absurd (BitVec.eq_of_toNat_eq (by simpa using hk)) (hw 0x07 (by decide))
  · exact absurd (BitVec.eq_of_toNat_eq (by simpa using hk)) (hw 0x0A (by decide))
  · exact absurd (BitVec.eq_of_toNat_eq (by simpa using hk)) (hw 0x15 (by decide))
  · exact absurd (BitVec.eq_of_toNat_eq (by simpa using hk)) (hw 0x18 (by decide))
  · exact absurd (BitVec.eq_of_toNat_eq (by simpa using hk)) (hw 0x1E (by decide))
  · exact absurd (BitVec.eq_of_toNat_eq (by simpa using hk)) (hw 0x29 (by decide))
  · exact absurd (BitVec.eq_of_toNat_eq (by simpa using hk)) (hw 0x33 (by decide))
  · exact absurd (BitVec.eq_of_toNat_eq (by simpa using hk)) (hw 0x55 (by decide))
  · exact absurd (BitVec.eq_of_toNat_eq (by simpa using hk)) (hw 0x65 (by decide))
  · simp

end Sys2Proof.Laws.EncodeDecode
end

