-- ==== Sys2Proof/Tests/Slice0.lean ====
section
/-! SUPPORT. The model's own tests: the ill-formed terms WellFormed refuses, a written-out word for every constructor, one
step on small states with the expected values of 95_test_vectors.md, and a witness for the hypotheses of each statement. -/

namespace Sys2Proof.Tests

-- One theorem at a time: checked side by side they take a thread each, and the threads take the memory.
set_option Elab.async false

open Sys2Proof.Machine

/-! ### WellFormed refuses: a no-op that carries an assigned sub-code (30_encoding.md R75 to R78) -/

theorem test_wellFormed_refuses_nopSys : (Instr.nopSys 0x12 0x0).wellFormed = false ∧
    (Instr.nopSys 0x12 0xE).wellFormed = false ∧ (Instr.nopSys 0x12 0x3).wellFormed = true := by decide
theorem test_wellFormed_refuses_nopAlu : (Instr.nopAlu 1 2 0x7).wellFormed = false ∧
    (Instr.nopAlu 1 2 0xE).wellFormed = false ∧ (Instr.nopAlu 1 2 0x8).wellFormed = true := by decide
theorem test_wellFormed_refuses_nopKey : (Instr.nopKey 0 0x9 0xE).wellFormed = false ∧
    (Instr.nopKey 0 0xA 0x1).wellFormed = false ∧ (Instr.nopKey 0 0xA 0x2).wellFormed = true := by decide
theorem test_wellFormed_refuses_nopMisc : (Instr.nopMisc 0 0x07).wellFormed = false ∧
    (Instr.nopMisc 0 0x65).wellFormed = false ∧ (Instr.nopMisc 0 0x08).wellFormed = true := by decide

/-! ### Decoding: every constructor, by a word written out from R74 to R78 -/

theorem test_decode_top0 : decodeWord 0b0000000011100000 = .clearScreen 0x0E ∧
    decodeWord 0b0000000011101110 = .ret 0x0E ∧ decodeWord 0b0000000100100011 = .nopSys 0x12 0x3 := by decide
theorem test_decode_flow : decodeWord 0b0001001000110100 = .jump 0x234 ∧
    decodeWord 0b0010001100000000 = .call 0x300 ∧ decodeWord 0b0011001101000010 = .skipEqImm 3 0x42 ∧
    decodeWord 0b0100001101000010 = .skipNeImm 3 0x42 ∧ decodeWord 0b0101000100100001 = .skipEqReg 1 2 0x1 ∧
    decodeWord 0b1001000100100000 = .skipNeReg 1 2 0x0 ∧ decodeWord 0b1011001100000000 = .jumpOffset 0x300 := by decide
theorem test_decode_immediate : decodeWord 0b0110000000001010 = .loadImm 0 0x0A ∧
    decodeWord 0b0111001000100000 = .addImm 2 0x20 ∧ decodeWord 0b1100000000001111 = .random 0 0x0F := by decide
theorem test_decode_alu : decodeWord 0b1000001101010000 = .move 3 5 ∧ decodeWord 0b1000001101010001 = .orReg 3 5 ∧
    decodeWord 0b1000001101010010 = .andReg 3 5 ∧ decodeWord 0b1000001101010011 = .xorReg 3 5 ∧
    decodeWord 0b1000001101010100 = .addReg 3 5 ∧ decodeWord 0b1000001101010101 = .subReg 3 5 ∧
    decodeWord 0b1000001101010110 = .shr 3 5 ∧ decodeWord 0b1000001101010111 = .subnReg 3 5 ∧
    decodeWord 0b1000001101011110 = .shl 3 5 ∧ decodeWord 0b1000001101011101 = .nopAlu 3 5 0xD := by decide
theorem test_decode_index : decodeWord 0b1010001100000000 = .setIndex 0x300 ∧
    decodeWord 0b1111010100011110 = .addIndex 5 ∧ decodeWord 0b1111000000101001 = .glyphAddr 0 ∧
    decodeWord 0b1111001000110011 = .bcdStore 2 ∧ decodeWord 0b1111001001010101 = .regDump 2 ∧
    decodeWord 0b1111001001100101 = .regLoad 2 ∧ decodeWord 0b1101000100100101 = .draw 1 2 5 := by decide
theorem test_decode_keys_timers : decodeWord 0b1110010010011110 = .skipKey 4 0x9 ∧
    decodeWord 0b1110010010100001 = .skipNkey 4 0xA ∧ decodeWord 0b1110010010100010 = .nopKey 4 0xA 0x2 ∧
    decodeWord 0b1111001100000111 = .getDelay 3 ∧ decodeWord 0b1111000000001010 = .waitKey 0 ∧
    decodeWord 0b1111001000010101 = .setDelay 2 ∧ decodeWord 0b1111001000011000 = .setSound 2 ∧
    decodeWord 0b1111001000011001 = .nopMisc 2 0x19 := by decide

/-- Two instructions' words, as 95_test_vectors.md L1-S1 and L1-S2 lay their bytes out. -/
theorem test_decode_bytes : decodeBytes [0x60, 0x0A, 0x80, 0x14] = .ok (.loadImm 0 0x0A, [0x80, 0x14]) ∧
    decodeTableWord 16 0x8014 = some (.addReg 0 1) ∧ encode (.addReg 0 1) = 0x8014 := ⟨rfl, rfl, rfl⟩

/-! ### One step on a small state -/

/-- What is seen of an answer that is a next state. -/
def seen {α : Type} (f : State → α) : Host.Outcome State Fault Refusal → Option α
  | .next t => some (f t)
  | .fault _ => none
  | .refused _ => none

/-- What is seen after one step of a state with a word placed at its `pc`. -/
def sees {α : Type} (s : State) (w : Nat) (f : State → α) : Option α := seen f (step (s.withFetchWord 16 w))

/-- The reset state with two registers set. -/
def twoRegs (x : Reg) (a : Byte) (y : Reg) (b : Byte) : State := (State.reset.writeV x a).writeV y b

/-- `V0 = a`, `V1 = b`, VF = 0x55 (V-ALU). -/
def aluState (a b : Byte) : State := (twoRegs 0 a 1 b).writeV regF 0x55

/-- The columns of the V-ALU table. -/
def v0vf (t : State) : Byte × Byte := (t.readV 0, t.readV regF)

/-- The next cycle's inputs, decided by the host. -/
def withInput (s : State) (tick : Bool) (rnd : Byte) : State :=
  { s with inputs := [⟨tick, rnd, Vector.replicate 16 false⟩] }

/-- One key pressed. -/
def pressed (s : State) (k : Reg) : State := { s with keyState := s.keyState.set k.val true }

/-- `I = i`, and a byte there. -/
def atIndex (s : State) (i : Word) (b : Byte) : State := { s with I := i, memory := s.memory.write i.toNat b }

/-- L1-S1. -/
theorem test_loadImm : sees State.reset 0x600A (fun t => (t.readV 0, t.pc, t.latchedOpcode)) =
    some (0x0A, 0x202, 0x600A) := by decide +kernel
/-- V-ALU, immediates. -/
theorem test_addImm_wraps : sees (twoRegs 2 0xF0 15 0x55) 0x7220 (fun t => (t.readV 2, t.readV regF)) =
    some (0x10, 0x55) := by decide +kernel
/-- V-ALU, row 05, 03. -/
theorem test_logic_05_03 : sees (aluState 5 3) 0x8010 v0vf = some (0x03, 0x55) ∧
    sees (aluState 5 3) 0x8011 v0vf = some (0x07, 0x55) ∧ sees (aluState 5 3) 0x8012 v0vf = some (0x01, 0x55) ∧
    sees (aluState 5 3) 0x8013 v0vf = some (0x06, 0x55) := by decide +kernel
/-- V-ALU, row FF, 01 (L1-S2). -/
theorem test_arith_FF_01 : sees (aluState 0xFF 1) 0x8014 v0vf = some (0x00, 1) ∧
    sees (aluState 0xFF 1) 0x8015 v0vf = some (0xFE, 1) ∧ sees (aluState 0xFF 1) 0x8016 v0vf = some (0x7F, 1) ∧
    sees (aluState 0xFF 1) 0x8017 v0vf = some (0x02, 0) ∧ sees (aluState 0xFF 1) 0x801E v0vf = some (0xFE, 1) := by
  decide +kernel
/-- V-ALU, row 03, 05. -/
theorem test_arith_03_05 : sees (aluState 3 5) 0x8014 v0vf = some (0x08, 0) ∧
    sees (aluState 3 5) 0x8015 v0vf = some (0xFE, 0) ∧ sees (aluState 3 5) 0x8016 v0vf = some (0x01, 1) ∧
    sees (aluState 3 5) 0x8017 v0vf = some (0x02, 1) ∧ sees (aluState 3 5) 0x801E v0vf = some (0x06, 0) := by
  decide +kernel
/-- V-ALU, row 00, 00: the quirk flag is 0 where the not-borrow is 1. -/
theorem test_subn_quirk : sees (aluState 0 0) 0x8017 v0vf = some (0, 0) ∧
    sees (aluState 0 0) 0x8015 v0vf = some (0, 1) := by decide +kernel
/-- V-ALU, destination VF: the flag is written last. -/
theorem test_destination_VF : sees (twoRegs 15 0xF0 1 0x20) 0x8F14 (fun t => t.readV regF) = some 0x01 ∧
    sees (twoRegs 15 0xF0 1 0x20) 0x8F17 (fun t => t.readV regF) = some 0x00 ∧
    sees (twoRegs 15 0xF0 1 0x20) 0x8F10 (fun t => t.readV regF) = some 0x20 := by decide +kernel
/-- V-ALU, source VF and the same register. -/
theorem test_source_VF_and_same : sees (twoRegs 0 0x10 15 0xF8) 0x80F4 v0vf = some (0x08, 0x01) ∧
    sees (twoRegs 2 0x81 15 0x55) 0x8224 (fun t => (t.readV 2, t.readV regF)) = some (0x02, 0x01) := by decide +kernel
/-- V-ALU, random. -/
theorem test_random : sees (withInput State.reset true 0xA7) 0xC00F (fun t => t.readV 0) = some 0x07 ∧
    sees (withInput State.reset true 0xFF) 0xC000 (fun t => t.readV 0) = some 0x00 := by decide +kernel

/-- V-FLOW. -/
theorem test_ret : sees { State.reset with sp := 1, pc := 0x300, stack := State.reset.stack.set 0 0x204 } 0x00EE
    (fun t => (t.pc, t.sp.val, t.stack[0])) = some (0x204, 0, 0x204) := by decide +kernel
/-- V-FLOW: the fault keeps nothing of the cycle. -/
theorem test_ret_underflows : sees { State.reset with delayTimer := 5 } 0x00EE
    (fun t => (t.fault, t.pc, t.sp.val, t.delayTimer)) =
    some (.faulted .stackUnderflow 0x200, 0x200, 0, 5) := by decide +kernel
/-- L1-P4. -/
theorem test_call_at_15 : sees { State.reset with sp := 15 } 0x2300 (fun t => (t.pc, t.sp.val, t.stack[15])) =
    some (0x300, 16, 0x202) := by decide +kernel
/-- V-FLOW, P6. -/
theorem test_call_overflows : sees { State.reset with sp := 16 } 0x2300
    (fun t => (t.fault, t.pc, t.sp.val, t.latchedOpcode)) =
    some (.faulted .stackOverflow 0x200, 0x200, 16, 0) := by decide +kernel
/-- V-FLOW. -/
theorem test_jumps : sees State.reset 0x1234 (fun t => t.pc) = some 0x234 ∧
    sees (State.reset.writeV 0 0xFF) 0xBFFF (fun t => t.pc) = some 0x10FE := by decide +kernel
/-- V-FLOW. -/
theorem test_skip_imm : sees (State.reset.writeV 3 0x42) 0x3342 (fun t => t.pc) = some 0x204 ∧
    sees (State.reset.writeV 3 0x42) 0x4342 (fun t => t.pc) = some 0x202 := by decide +kernel
/-- V-FLOW, V-DEC. -/
theorem test_skip_reg : sees (twoRegs 1 7 2 8) 0x5120 (fun t => t.pc) = some 0x202 ∧
    sees (twoRegs 1 7 2 8) 0x9121 (fun t => t.pc) = some 0x204 := by decide +kernel

/-- V-IDX. -/
theorem test_index : sees State.reset 0xAFFF (fun t => t.I) = some 0xFFF ∧
    sees { State.reset.writeV 1 2 with I := 0xFFFF } 0xF11E (fun t => t.I) = some 0x0001 ∧
    sees (State.reset.writeV 1 0xFF) 0xF129 (fun t => t.I) = some 0x54B := by decide +kernel
/-- V-IDX: the digits wrap past 0xFFF. -/
theorem test_bcd_wraps : sees { State.reset.writeV 0 0xFF with I := 0xFFF } 0xF033
    (fun t => (t.readMem 0xFFF, t.readMem 0, t.readMem 1)) = some (2, 5, 5) := by decide +kernel
/-- V-IDX. -/
theorem test_regDump : sees { (twoRegs 0 0x11 1 0x22).writeV 2 0x33 with I := 0x400 } 0xF155
    (fun t => (t.readMem 0x400, t.readMem 0x401, t.readMem 0x402, t.I)) = some (0x11, 0x22, 0, 0x400) := by
  decide +kernel
/-- V-IDX: the first glyph byte of the default `GLYPH_ROM`. -/
theorem test_regLoad : sees { State.reset.writeV 1 0x77 with I := 0x050 } 0xF065
    (fun t => (t.readV 0, t.readV 1)) = some (0xF0, 0x77) := by decide +kernel

/-- L1-S3, the first draw. -/
theorem test_draw_lights : sees (atIndex State.reset 0x300 0xF0) 0xD011
    (fun t => (Framebuffer.lit t.fb 0 0, Framebuffer.lit t.fb 3 0, Framebuffer.lit t.fb 4 0, t.readV regF)) =
    some (true, true, false, 0) := by decide +kernel
/-- V-DSP: sticky collision, and the clip at the right edge. -/
theorem test_draw_collides_and_clips :
    sees { atIndex State.reset 0x300 0xC0 with fb := Framebuffer.put blankFramebuffer 0 0 true } 0xD011
      (fun t => (Framebuffer.lit t.fb 0 0, Framebuffer.lit t.fb 1 0, t.readV regF)) = some (false, true, 1) ∧
    sees { atIndex (State.reset.writeV 0 60) 0x300 0xFF with fb := Framebuffer.put blankFramebuffer 0 0 true } 0xD011
      (fun t => (Framebuffer.lit t.fb 0 0, Framebuffer.lit t.fb 63 0, t.readV regF)) = some (true, true, 0) := by
  decide +kernel
/-- V-DEC. -/
theorem test_clearScreen : sees { State.reset with fb := Framebuffer.put blankFramebuffer 0 0 true } 0x0000
    (fun t => (Framebuffer.lit t.fb 0 0, t.pc)) = some (false, 0x202) := by decide +kernel
/-- V-DEC: none of the four no-ops clears the screen. -/
theorem test_nops : sees { State.reset with fb := Framebuffer.put blankFramebuffer 0 0 true } 0x0123
      (fun t => (Framebuffer.lit t.fb 0 0, t.pc)) = some (true, 0x202) ∧
    sees (aluState 1 1) 0x800D (fun t => (v0vf t, t.pc)) = some ((1, 0x55), 0x202) ∧
    sees State.reset 0xE002 (fun t => t.pc) = some 0x202 ∧ sees State.reset 0xF00B (fun t => t.pc) = some 0x202 := by
  decide +kernel

/-- V-KEY. -/
theorem test_skipKey : sees (pressed (State.reset.writeV 4 7) 7) 0xE49E (fun t => t.pc) = some 0x204 ∧
    sees { State.reset.writeV 0 0x10 with delayTimer := 5 } 0xE09E (fun t => (t.fault, t.pc, t.delayTimer)) =
      some (.faulted .keyIndexOutOfRange 0x200, 0x200, 5) := by decide +kernel
/-- V-KEY. -/
theorem test_skipNkey : sees (State.reset.writeV 4 7) 0xE4A1 (fun t => t.pc) = some 0x204 ∧
    sees (State.reset.writeV 0 0xFF) 0xE0A1 (fun t => t.fault) = some (.faulted .keyIndexOutOfRange 0x200) := by
  decide +kernel
/-- L1-S5 and V-KEY: the lowest key, and the timers run while waiting. -/
theorem test_waitKey : sees (pressed (pressed State.reset 3) 9) 0xF00A (fun t => (t.readV 0, t.pc)) =
      some (3, 0x202) ∧
    sees { State.reset with delayTimer := 3 } 0xF00A (fun t => (t.readV 0, t.pc, t.delayTimer)) =
      some (0, 0x200, 2) := by decide +kernel
/-- V-KEY. -/
theorem test_getDelay : sees { State.reset with delayTimer := 5 } 0xF307 (fun t => (t.readV 3, t.delayTimer)) =
    some (5, 4) := by decide +kernel
/-- V-KEY: with and without `tick`. -/
theorem test_setDelay : sees (State.reset.writeV 2 5) 0xF215 (fun t => t.delayTimer) = some 4 ∧
    sees (withInput (State.reset.writeV 2 5) false 0) 0xF215 (fun t => t.delayTimer) = some 5 := by decide +kernel
/-- V-KEY. -/
theorem test_setSound : sees (State.reset.writeV 2 0x80) 0xF218 (fun t => t.soundTimer) = some 0x7F := by decide +kernel

/-- L1-S4: floor at zero. -/
theorem test_timer_floor : sees { State.reset with delayTimer := 1 } 0x6000 (fun t => (t.delayTimer, t.soundTimer)) =
    some (0, 0) := by decide +kernel
/-- V-CYC: the fetch at 0xFFE is in range; at 0xFFF it is not. -/
theorem test_fetch_edges : sees { State.reset with pc := 0xFFE } 0x1200 (fun t => (t.fault, t.pc)) =
      some (.none, 0x200) ∧
    seen (fun t => (t.fault, t.pc)) (step { State.reset with pc := 0xFFF }) =
      some (.faulted .fetchOutOfRange 0xFFF, 0xFFF) := by decide +kernel
/-- V-CYC: an odd `pc` is fetched like any other. -/
theorem test_fetch_odd : sees { State.reset with pc := 0x201 } 0x6123 (fun t => (t.readV 1, t.pc)) =
    some (0x23, 0x203) := by decide +kernel
/-- V-RST: the longest image is taken, a longer one refused. -/
theorem test_load : seen (fun t => (t.readMem 0x200, t.readMem 0x201)) (State.loadImage [0x60, 0x0A] State.reset) =
      some (0x60, 0x0A) ∧
    State.loadImage (List.replicate 3585 0) State.reset = .refused .imageTooLong := by
  refine ⟨by decide +kernel, ?_⟩
  rw [State.loadImage, if_neg (by rw [List.length_replicate]; decide)]

/-! ### Witnesses: for each statement with hypotheses, states and operands that meet them together -/

/-- A core about to run a word, and the state one step later. -/
def about (w : Nat) : State := State.reset.withFetchWord 16 w

/-- A core with a fault recorded. -/
def stopped : State := { about 0x00EE with fault := .faulted .stackUnderflow 0x200 }

/-- Every step and every handler answers, so its next state can be named. -/
theorem step_answers (s : State) : ∃ t, step s = .next t := by
  rcases runOneCycle_cases s with ⟨k, p, -, h⟩ | ⟨-, -, h⟩ | ⟨-, -, t, -, -, h⟩ <;> exact ⟨_, step_of_cycle h⟩

theorem witness_DecodeOfEncodeIsIdentity : (Instr.nopSys 0x12 0x1).wellFormed = true ∧
    (Instr.nopAlu 1 2 0xF).wellFormed = true ∧ (Instr.nopKey 0 0x9 0xF).wellFormed = true ∧
    (Instr.nopMisc 0 0x66).wellFormed = true ∧ (Instr.draw 1 2 0).wellFormed = true := by decide
theorem witness_LoadImmWritesItsByte : (14 : Reg) ≠ 15 ∧ (0 : Reg) ≠ 15 := by decide
theorem witness_AddImmAddsModulo256 : (15 : Reg) ≠ 0 := by decide
theorem witness_MoveOrAndXorWriteOnlyTheirDestination : (15 : Reg) ≠ 3 := by decide
theorem witness_AddRegSumsAndCarries : (14 : Reg) ≠ regF ∧ (13 : Reg) ≠ 14 ∧ (13 : Reg) ≠ regF := by decide
theorem witness_SubRegSubtractsAndReportsNoBorrow : (0 : Reg) ≠ regF ∧ (1 : Reg) ≠ 0 ∧ (1 : Reg) ≠ regF := by decide
theorem witness_ShrHalvesAndReportsBit0 : (14 : Reg) ≠ regF ∧ (0 : Reg) ≠ 14 ∧ (0 : Reg) ≠ regF := by decide
theorem witness_SubnRegSubtractsAndSetsTheQuirkFlag : (14 : Reg) ≠ regF ∧ (0 : Reg) ≠ 14 ∧ (0 : Reg) ≠ regF := by decide
theorem witness_ShlDoublesAndReportsBit7 : (14 : Reg) ≠ regF ∧ (0 : Reg) ≠ 14 ∧ (0 : Reg) ≠ regF := by decide
theorem witness_RandomMasksTheCyclesDraw : (withInput State.reset false 0xA7).inputs =
    ⟨false, 0xA7, Vector.replicate 16 false⟩ :: [] ∧ (1 : Reg) ≠ 0 := ⟨rfl, by decide⟩
theorem witness_ReturnPopsOrUnderflows : 0 < ({ State.reset with sp := 1 } : State).sp.val ∧
    0 < ({ State.reset with sp := 16 } : State).sp.val ∧ (about 0x00EE).fault = .none ∧
    (about 0x00EE).pc.toNat ≤ 0xFFE ∧ decodeWord (about 0x00EE).fetchWord = .ret 0x0E ∧ (about 0x00EE).sp.val = 0 := by
  decide +kernel
theorem witness_CallPushesOrOverflows : State.reset.sp.val < 16 ∧
    ({ State.reset with sp := 15 } : State).sp.val < 16 ∧ (1 : Nat) ≠ State.reset.sp.val ∧
    ({ about 0x2300 with sp := 16 } : State).fault = .none ∧ ({ about 0x2300 with sp := 16 } : State).pc.toNat ≤ 0xFFE ∧
    decodeWord ({ about 0x2300 with sp := 16 } : State).fetchWord = .call 0x300 ∧
    ({ about 0x2300 with sp := 16 } : State).sp.val = 16 := by decide +kernel
theorem witness_NoOpChangesNothing : unassignedEncoding 0x0FF1 ∧ unassignedEncoding 0x8008 ∧
    unassignedEncoding 0xE002 ∧ unassignedEncoding 0xF0FF :=
  ⟨.inl (by decide), .inr (.inl (by decide)), .inr (.inr (.inl (by decide))), .inr (.inr (.inr (by decide)))⟩
theorem witness_NoOpChangesNothing_cycle : ∃ s : State, s.fault = .none ∧ s.pc.toNat = 0xFFE ∧
    unassignedEncoding s.fetchWord :=
  ⟨({ State.reset with pc := 0xFFE } : State).withFetchWord 16 0x0001, by decide +kernel, by decide +kernel,
    .inl (by decide +kernel)⟩
theorem witness_ReturnUndoesCall : ({ State.reset with sp := 15 } : State).sp.val < 16 ∧
    ∃ t u : State, exec (.call 0x300) { State.reset with sp := 15 } = .next t ∧ u.stack = t.stack ∧ u.sp = t.sp :=
  ⟨by decide, _, _, rfl, rfl, rfl⟩
theorem witness_EffectiveAddressIsTheMaskedSum : Instr.draw 1 2 5 ∈
    [Instr.bcdStore 0, .regDump 0, .regLoad 0, .draw 1 2 5] := by decide
theorem witness_BcdStoreStoresThreeDigits : 3 ≠ State.reset.ea 0 ∧ 3 ≠ State.reset.ea 1 ∧ 3 ≠ State.reset.ea 2 := by decide
theorem witness_RegDumpStoresV0ToVx : (15 : Reg) ≤ 15 ∧ (∀ r : Reg, r ≤ 15 → 16 ≠ State.reset.ea r.val) ∧
    ∀ r : Reg, r ≤ 0 → 1 ≠ State.reset.ea r.val := by decide
theorem witness_RegLoadUndoesRegDump : ∃ t u : State, exec (.regDump 15) State.reset = .next t ∧
    u.memory = t.memory ∧ u.I = State.reset.I ∧ u.readV 0 = 0x77 := by
  refine ⟨_, (State.reset.dumpRegs 16).writeV 0 0x77, rfl, rfl, ?_, by simp⟩
  have := (State.reset.dumpRegs_spec (k := 16) (by omega)).2.2.1
  rw [State.writeV_I, this]
theorem witness_GlyphAddrFindsTheGlyph : State.reset.memory.cells = [] ∧ (State.reset.readV 0).toNat = (0 : Fin 16).val ∧
    ((State.reset.writeV 0 0xF).readV 0).toNat = (15 : Fin 16).val ∧ (State.reset.writeV 0 0xF).memory.cells = [] := by
  decide
theorem witness_DrawTogglesTheSpriteAndReportsCollision : (63 : Nat) < 64 ∧ (31 : Nat) < 32 ∧ (14 : Reg) ≠ regF := by
  decide
theorem witness_DrawingTwiceRestoresTheScreen : ∃ s t : State, exec (.draw 0 1 1) s = .next t ∧
    t.startCol 0 = s.startCol 0 ∧ t.startRow 1 = s.startRow 1 :=
  ⟨atIndex State.reset 0x300 0xF0, _, rfl, by decide +kernel, by decide +kernel⟩
theorem witness_KeySkipsReadOneKeyOrFault : ((State.reset.writeV 0 0x0F).readV 0).toNat = (15 : Reg).val ∧
    (State.reset.readV 0).toNat = (0 : Reg).val ∧ ((about 0xE09E).writeV 0 0x10).fault = .none ∧
    ((about 0xE09E).writeV 0 0x10).pc.toNat ≤ 0xFFE ∧ 0xF < (((about 0xE09E).writeV 0 0x10).readV 0).toNat ∧
    decodeWord ((about 0xE09E).writeV 0 0x10).fetchWord = .skipKey 0 0x9 ∧
    decodeWord ((about 0xE0A1).writeV 0 0x10).fetchWord = .skipNkey 0 0xA := by decide +kernel
theorem witness_WaitKeyTakesTheLowestKeyOrWaits :
    ((pressed State.reset 15).keyPressed 15 = true ∧ ∀ j : Reg, j < 15 → (pressed State.reset 15).keyPressed j = false) ∧
    ((pressed State.reset 0).keyPressed 0 = true ∧ ∀ j : Reg, j < 0 → (pressed State.reset 0).keyPressed j = false) ∧
    (about 0xF00A).fault = .none ∧ (about 0xF00A).pc.toNat ≤ 0xFFE ∧
    decodeWord (about 0xF00A).fetchWord = .waitKey 0 ∧ ∀ k, (about 0xF00A).keyPressed k = false := by decide +kernel
theorem witness_TimerInstructionsMoveOneByte : (15 : Reg) ≠ 3 := by decide
theorem witness_EveryInstructionKeepsItsFrame : ∃ t : State, exec (.regDump 1) State.reset = .next t ∧
    (Instr.regDump 1).writesReg 15 = false ∧ (Instr.regDump 1).writesI = false ∧ (Instr.regDump 1).writesPc = false ∧
    (Instr.regDump 1).writesSp = false ∧ (Instr.regDump 1).writesStack = false ∧
    (Instr.regDump 1).writesDelay = false ∧ (Instr.regDump 1).writesSound = false ∧
    (Instr.regDump 1).writesFb = false ∧ (Instr.regDump 1).raises = false ∧
    State.reset.stores 2 (.regDump 1) = false ∧ State.reset.stores 1 (.regDump 1) = true :=
  ⟨_, rfl, by decide⟩
theorem witness_OnlyRandomReadsTheDraw : (Instr.draw 0 1 5).readsRnd = false ∧ (Instr.random 0 1).readsRnd = true ∧
    ∃ t, exec (.draw 0 1 5) State.reset = .next t := ⟨rfl, rfl, _, rfl⟩
theorem witness_DevicesAreReachedOnlyByTheirInstructions : (Instr.draw 0 1 5).readsKeys = false ∧
    (Instr.waitKey 0).writesFb = false ∧ (∃ t, exec (.draw 0 1 5) State.reset = .next t) ∧
    ∃ t, exec (.waitKey 0) State.reset = .next t :=
  ⟨rfl, rfl, ⟨_, rfl⟩, (exec_next _ _).imp fun _ h => h.1⟩
/-- The two clauses: a handler that raises nothing, and one that raises, at the last address a fetch can read. -/
theorem witness_StepRunsTheDecodedInstruction : ∃ s u : State,
    s.fault = .none ∧ s.pc.toNat ≤ 0xFFE ∧ u.fault = .none ∧ u.pc.toNat ≤ 0xFFE ∧
    decodeBytes [s.readMem s.pc.toNat, s.readMem (s.pc.toNat + 1)] = .ok (.ret 0x0E, []) ∧
    decodeBytes [u.readMem u.pc.toNat, u.readMem (u.pc.toNat + 1)] = .ok (.setIndex 0xFFF, []) ∧
    seen (fun t => t.fault) (exec (.ret 0x0E) s.latchAndAdvance) = some (.faulted .stackUnderflow 0xFFE) ∧
    seen (fun t => t.fault) (exec (.setIndex 0xFFF) u.latchAndAdvance) = some .none :=
  ⟨({ State.reset with pc := 0xFFE } : State).withFetchWord 16 0x00EE, about 0xAFFF, by decide +kernel,
    by decide +kernel, by decide +kernel, by decide +kernel, by rfl, by rfl, by decide +kernel, by decide +kernel⟩
theorem witness_StepLatchesAndAdvances : (about 0x600A).fault = .none ∧ (about 0x600A).nextFault = none ∧
    (decodeWord (about 0x600A).fetchWord).writesPc = false ∧ ∃ t, step (about 0x600A) = .next t :=
  ⟨rfl, by decide +kernel, by decide +kernel, step_answers _⟩
theorem witness_TimerStageCountsDown : (withInput State.reset false 0).tick = false ∧ State.reset.tick = true := by decide
theorem witness_CountdownFollowsTheHandler : (about 0xF307).fault = .none ∧ (about 0xF307).pc.toNat ≤ 0xFFE ∧
    decodeWord (about 0xF307).fetchWord = .getDelay 3 ∧ decodeWord (about 0xF215).fetchWord = .setDelay 2 ∧
    decodeWord (about 0xF218).fetchWord = .setSound 2 := by decide +kernel
theorem witness_SoundTimerReachesNothingElse : ∃ t, step { about 0xF218 with soundTimer := 9 } = .next t := step_answers _
theorem witness_KeysChangeOnlyByTheHost : (∃ t, step (withInput State.reset true 0) = .next t) ∧
    ∃ t, step State.reset = .next t := ⟨step_answers _, step_answers _⟩
theorem witness_CyclesFaultExactlyWhereTheRulesSay : (about 0x600A).fault = .none ∧ (about 0x600A).nextFault = none ∧
    ({ State.reset with pc := 0xFFE } : State).nextFault = none ∧
    ({ State.reset with pc := 0xFFF } : State).nextFault = some .fetchOutOfRange ∧
    (about 0x00EE).nextFault = some .stackUnderflow ∧
    ({ about 0x2300 with sp := 16 } : State).nextFault = some .stackOverflow ∧
    ((about 0xE09E).writeV 0 0x10).nextFault = some .keyIndexOutOfRange ∧
    ((about 0xE0A1).writeV 0 0x0F).nextFault = none := by decide +kernel
theorem witness_RaisingHandlersOnlyRecordTheFault : State.reset.sp.val = 0 ∧
    ({ State.reset with sp := 16 } : State).sp.val = 16 ∧ 0xF < ((State.reset.writeV 0 0x10).readV 0).toNat := by decide
theorem witness_FaultedCoreDoesNotStep : stopped.fault = .faulted .stackUnderflow 0x200 ∧
    ∃ t, State.loadImage [0x60, 0x0A] stopped = .next t := ⟨rfl, _, rfl⟩
theorem witness_StepIsACycleAndTheHostsTurn : stopped.fault = .faulted .stackUnderflow 0x200 ∧
    (∃ t, step stopped = .next t) ∧ ∃ t, runOneCycle stopped = .next t :=
  ⟨rfl, step_answers _, _, runOneCycle_faulted rfl⟩
theorem witness_StepKeepsFaultsExplained : stopped.FaultExplained ∧ stopped.fault ≠ .none ∧
    ∃ t, step stopped = .next t := by
  refine ⟨fun k p h => ?_, by decide, step_answers _⟩
  have h' : FaultStatus.faulted .stackUnderflow 0x200 = .faulted k p := h
  cases h'
  exact ⟨by decide +kernel, by decide +kernel⟩
theorem witness_StepKeepsMemoryCanonical : (about 0x600A).MemoryCanonical ∧
    (about 0x600A).memory.cells = [(0x200, 0x60), (0x201, 0x0A)] ∧ ∃ t, step (about 0x600A) = .next t := by
  unfold State.MemoryCanonical
  exact ⟨by decide +kernel, by decide +kernel, step_answers _⟩
theorem witness_InitializeSetsEveryComponent : (15 : Nat) < 16 ∧ (0x04F < 0x050 ∨ 0x09F < 0x04F) ∧
    (0x0A0 < 0x050 ∨ 0x09F < 0x0A0) := by decide
theorem witness_ResetIsTheInitializedCore : State.reset.memory.glyphRom = Config.defaultGlyphRom ∧
    stopped.memory.glyphRom = Config.defaultGlyphRom := ⟨rfl, by decide +kernel⟩
theorem witness_LoadPlacesTheImageOrRefuses : ([] : List Byte).length ≤ 3584 ∧
    (List.replicate 3584 (0 : Byte)).length ≤ 3584 ∧ 3584 < (List.replicate 3585 (0 : Byte)).length ∧
    State.reset.MemoryCanonical := by
  rw [List.length_replicate, List.length_replicate]
  exact ⟨by decide, by decide, by decide, rfl⟩
theorem witness_PlacedWordIsFetched : (0 : Nat) < 65536 ∧ 65535 < 65536 := by decide

end Sys2Proof.Tests
end

section
/-! PROOFS. What makes a handler raise (R231, R232, R234), as the state's own operations answer it, and the statement on
the raising handlers. -/

namespace Sys2Proof.Machine

theorem State.pop_eq_none {s : State} (h : s.sp.val = 0) : s.pop = none := by
  rcases s.pop_cases with ⟨hpos, -⟩ | ⟨-, e⟩
  · omega
  · exact e

theorem State.push_eq_none {s : State} (w : Word) (h : s.sp.val = 16) : s.push w = none := by
  rcases s.push_cases w with ⟨hlt, -⟩ | ⟨-, e⟩
  · omega
  · exact e

theorem keyOperand_eq_none {v : Byte} (h : 0xF < v.toNat) : keyOperand v = none := by
  rcases keyOperand_cases v with ⟨k, -, hk⟩ | ⟨-, e⟩
  · omega
  · exact e

/-- Settles O49: under each premise the operation the handler turns on answers nothing, and the handler then enters the
fault, which writes no other component (R235). -/
theorem raisingHandlersOnlyRecordTheFault : Obligations.RaisingHandlersOnlyRecordTheFault := by
  unfold Obligations.RaisingHandlersOnlyRecordTheFault
  refine fun s => ⟨fun ign hsp => ?ret, fun nnn hsp => ?call, fun x ign hx => ⟨?skipKey, ?skipNkey⟩⟩
  case ret => exact exec_ret_empty (State.pop_eq_none hsp)
  case call => exact exec_call_full (State.push_eq_none s.pc hsp)
  case skipKey => exact exec_skipKey_out (keyOperand_eq_none hx)
  case skipNkey => exact exec_skipNkey_out (keyOperand_eq_none hx)

end Sys2Proof.Machine
end

section
/-! PROOFS. What a step inverts to, and what no step does to memory, to the keys, to the host's schedule and to a recorded
fault. -/

namespace Sys2Proof.Machine

/-! ### The host's turn and the keys (R30, R110) -/

theorem State.hostTurn_keyState_nil {s : State} (h : s.inputs = []) : s.hostTurn.keyState = s.keyState := by
  simp only [State.hostTurn, h]

theorem State.hostTurn_keyState_cons {s : State} {c : CycleInput} {rest : List CycleInput}
    (h : s.inputs = c :: rest) : s.hostTurn.keyState = c.keysAfter := by
  simp only [State.hostTurn, h]

/-! ### A step, taken apart -/

/-- Everything a step that answers can be: a cycle, and then the host's turn. -/
theorem cycle_of_step {s t : State} (h : step s = .next t) : ∃ u, runOneCycle s = .next u ∧ t = u.hostTurn := by
  obtain ⟨u, hu⟩ : ∃ u, runOneCycle s = .next u := by
    rcases runOneCycle_cases s with ⟨_, _, _, hu⟩ | ⟨_, _, hu⟩ | ⟨_, _, _, _, _, hu⟩ <;> exact ⟨_, hu⟩
  rw [step_of_cycle hu] at h
  cases h
  exact ⟨u, hu, rfl⟩

theorem State.endHandler_running {s0 s : State} (h : s.fault = .none) : s0.endHandler s = s.timerStage := by
  simp only [State.endHandler, h]

theorem State.endHandler_raised {s0 s : State} {k : Fault} {p : Word} (h : s.fault = .faulted k p) :
    s0.endHandler s = s0.enterFault k p := by
  simp only [State.endHandler, h]

/-- A cycle leaves the host's side to the host's turn, whether it completes or raises (R110). -/
theorem runOneCycle_keeps_host {s t : State} (h : runOneCycle s = .next t) :
    t.keyState = s.keyState ∧ t.inputs = s.inputs ∧ t.cycle = s.cycle := by
  rcases runOneCycle_cases s with ⟨k, p, -, e⟩ | ⟨-, -, e⟩ | ⟨-, -, u, -, hu, e⟩ <;> cases e.symm.trans h
  case inl => exact ⟨rfl, rfl, rfl⟩
  case inr.inl => exact ⟨rfl, rfl, rfl⟩
  case inr.inr =>
    obtain ⟨-, hkeys, hinputs, hcycle, -, -⟩ := hu
    cases hf : u.fault with
    | none => rw [State.endHandler_running hf]; exact ⟨hkeys, hinputs, hcycle⟩
    | faulted k p => rw [State.endHandler_raised hf]; exact ⟨rfl, rfl, rfl⟩

/-- A cycle keeps memory canonical. -/
theorem runOneCycle_memory_wf {s t : State} (hs : s.memory.wf = true) (h : runOneCycle s = .next t) :
    t.memory.wf = true := by
  rcases runOneCycle_cases s with ⟨k, p, -, e⟩ | ⟨-, -, e⟩ | ⟨-, -, u, -, hu, e⟩ <;> cases e.symm.trans h
  case inl => exact hs
  case inr.inl => exact hs
  case inr.inr =>
    obtain ⟨-, -, -, -, -, hwf⟩ := hu
    exact endHandler_memory_wf hs (hwf hs)

/-! ### The statements -/

/-- Settles O55: the cycle keeps the canonical form, and the host's turn does not reach memory. -/
theorem stepKeepsMemoryCanonical : Obligations.StepKeepsMemoryCanonical := by
  unfold Obligations.StepKeepsMemoryCanonical
  intro s t hs h
  obtain ⟨u, hu, rfl⟩ := cycle_of_step h
  rw [State.MemoryCanonical, State.hostTurn_memory]
  exact runOneCycle_memory_wf hs hu

/-- Settles O56: at reset no byte differs from its reset content. -/
theorem resetMemoryIsCanonical : Obligations.ResetMemoryIsCanonical :=
  Memory.wf_nil Config.defaultGlyphRom

/-- Settles O51: a faulted core's cycle is the identity (R109), so its step is the host's turn, which keeps the fault. -/
theorem stepIsACycleAndTheHostsTurn : Obligations.StepIsACycleAndTheHostsTurn := by
  unfold Obligations.StepIsACycleAndTheHostsTurn
  refine ⟨fun s t => step_of_cycle, fun s t k p hf h => ?_⟩
  cases (step_of_cycle (runOneCycle_faulted hf)).symm.trans h
  exact ⟨rfl, s.hostTurn_fault.trans hf⟩

/-- Settles O47: the cycle keeps the host's side, so what is left is what the host's turn does with the schedule. -/
theorem keysChangeOnlyByTheHost : Obligations.KeysChangeOnlyByTheHost := by
  unfold Obligations.KeysChangeOnlyByTheHost
  intro s t h
  obtain ⟨u, hu, rfl⟩ := cycle_of_step h
  obtain ⟨hkeys, hinputs, hcycle⟩ := runOneCycle_keeps_host hu
  refine ⟨?_, by rw [State.hostTurn_inputs, hinputs], by rw [State.hostTurn_cycle, hcycle]⟩
  cases hs : s.inputs with
  | nil => exact (State.hostTurn_keyState_nil (hinputs.trans hs)).trans hkeys
  | cons c rest => exact State.hostTurn_keyState_cons (hinputs.trans hs)

end Sys2Proof.Machine
end

section
/-! PROOFS. The frame of every handler: what the effect tables of Safety.lean do not name for it, it keeps. -/

namespace Sys2Proof.Machine

/-- The state before an instruction, with the components that the effect tables name for it taken from `t`. Registers
and memory, whose tables name single entries, are taken whole. -/
def State.withWritten (s : State) (i : Instr) (t : State) : State :=
  { s with
    V := t.V
    memory := t.memory
    I := bif i.writesI then t.I else s.I
    pc := bif i.writesPc then t.pc else s.pc
    sp := bif i.writesSp then t.sp else s.sp
    stack := bif i.writesStack then t.stack else s.stack
    delayTimer := bif i.writesDelay then t.delayTimer else s.delayTimer
    soundTimer := bif i.writesSound then t.soundTimer else s.soundTimer
    fb := bif i.writesFb then t.fb else s.fb
    fault := bif i.raises then t.fault else s.fault }

/-- From `s` to `t`, everything the effect tables do not name for `i` is kept: the components, the registers, and the
bytes of memory. -/
def KeepsFrame (i : Instr) (s t : State) : Prop :=
  t = s.withWritten i t ∧ (∀ r, i.writesReg r = false → t.readV r = s.readV r) ∧
  ∀ a, s.stores a i = false → t.readMem a = s.readMem a

theorem readV_writeResultFlag_other (s : State) {x q : Reg} (r f : Byte) (h : (q == x || q == regF) = false) :
    (s.writeResultFlag x r f).readV q = s.readV q := by
  simp only [Bool.or_eq_false_iff, beq_eq_false_iff_ne] at h
  rw [State.readV_writeResultFlag, if_neg h.2, if_neg h.1]

theorem readV_writeV_other (s : State) {x q : Reg} (v : Byte) (h : (q == x) = false) :
    (s.writeV x v).readV q = s.readV q :=
  s.readV_writeV_ne (beq_eq_false_iff_ne.mp h) v

/-- Every handler keeps its frame. -/
theorem exec_keepsFrame (i : Instr) (s : State) : ∃ t, exec i s = .next t ∧ KeepsFrame i s t := by
  cases i with
  | ret ign =>
    rcases s.pop_cases with ⟨h, e⟩ | ⟨-, e⟩
    · exact ⟨_, exec_ret_pop e, rfl, fun _ _ => rfl, fun _ _ => rfl⟩
    · exact ⟨_, exec_ret_empty e, rfl, fun _ _ => rfl, fun _ _ => rfl⟩
  | call nnn =>
    rcases s.push_cases s.pc with ⟨h, e⟩ | ⟨-, e⟩
    · exact ⟨_, exec_call_push e, rfl, fun _ _ => rfl, fun _ _ => rfl⟩
    · exact ⟨_, exec_call_full e, rfl, fun _ _ => rfl, fun _ _ => rfl⟩
  | skipKey x ign =>
    rcases keyOperand_cases (s.readV x) with ⟨k, e, -⟩ | ⟨-, e⟩
    · exact ⟨_, exec_skipKey_key e, rfl, fun _ _ => rfl, fun _ _ => rfl⟩
    · exact ⟨_, exec_skipKey_out e, rfl, fun _ _ => rfl, fun _ _ => rfl⟩
  | skipNkey x ign =>
    rcases keyOperand_cases (s.readV x) with ⟨k, e, -⟩ | ⟨-, e⟩
    · exact ⟨_, exec_skipNkey_key e, rfl, fun _ _ => rfl, fun _ _ => rfl⟩
    · exact ⟨_, exec_skipNkey_out e, rfl, fun _ _ => rfl, fun _ _ => rfl⟩
  | waitKey x =>
    rcases s.firstPressed_cases with ⟨k, e, -⟩ | ⟨e, -⟩
    · exact ⟨_, exec_waitKey_pressed e, rfl, fun _ => readV_writeV_other s _, fun _ _ => rfl⟩
    · exact ⟨_, exec_waitKey_waits e, rfl, fun _ _ => rfl, fun _ _ => rfl⟩
  | loadImm x kk | addImm x kk | random x kk | move x y | orReg x y | andReg x y | xorReg x y | getDelay x =>
    exact ⟨_, rfl, rfl, fun _ => readV_writeV_other s _, fun _ _ => rfl⟩
  | addReg x y | subReg x y | shr x y | subnReg x y | shl x y =>
    exact ⟨_, rfl, rfl, fun _ => readV_writeResultFlag_other s _ _, fun _ _ => rfl⟩
  | draw x y n => exact ⟨_, rfl, rfl, fun _ => readV_writeV_other (s.setFb _) _, fun _ _ => rfl⟩
  | regLoad x =>
    obtain ⟨hread, hV⟩ := s.loadRegs_spec (k := x.val + 1) (by omega)
    refine ⟨_, rfl, by rw [hV]; rfl, fun r hr => ?_, fun a _ => by rw [hV]; rfl⟩
    have hxr : x.val < r.val := not_le.mp (of_decide_eq_false hr)
    rw [hread, if_neg (by omega)]
  | bcdStore x =>
    refine ⟨_, rfl, rfl, fun _ _ => rfl, fun a ha => ?_⟩
    simp only [State.stores, Bool.or_eq_false_iff, beq_eq_false_iff_ne] at ha
    obtain ⟨⟨h0, h1⟩, h2⟩ := ha
    simp only [State.readMem_writeEa, State.writeEa_ea, if_neg h0, if_neg h1, if_neg h2]
  | regDump x =>
    obtain ⟨-, hread, hmem, -, -⟩ := s.dumpRegs_spec (k := x.val + 1) (by omega)
    refine ⟨_, rfl, by rw [hmem]; rfl, fun r _ => by rw [hmem]; rfl, fun a ha => hread a fun j hj => ?_⟩
    have hne := List.any_eq_false.mp ha j (List.mem_range.mpr hj)
    simpa using hne
  | _ => exact ⟨_, rfl, rfl, fun _ _ => rfl, fun _ _ => rfl⟩

theorem keepsFrame_of_exec {i : Instr} {s t : State} (h : exec i s = .next t) : KeepsFrame i s t := by
  obtain ⟨u, hu, hk⟩ := exec_keepsFrame i s
  cases hu.symm.trans h
  exact hk

theorem keepsHostSide_of_exec {i : Instr} {s t : State} (h : exec i s = .next t) : KeepsHostSide s t := by
  obtain ⟨u, hu, hk⟩ := exec_next i s
  cases hu.symm.trans h
  exact hk

/-! ### The components of a frame, by their tables -/

namespace KeepsFrame

variable {i : Instr} {s t : State} (h : KeepsFrame i s t)

include h

theorem component {α : Type} (f : State → α) : f t = f (s.withWritten i t) := congrArg f h.1

theorem I_eq (e : i.writesI = false) : t.I = s.I := by
  simpa only [State.withWritten, e, cond_false] using h.component State.I

theorem pc_eq (e : i.writesPc = false) : t.pc = s.pc := by
  simpa only [State.withWritten, e, cond_false] using h.component State.pc

theorem sp_eq (e : i.writesSp = false) : t.sp = s.sp := by
  simpa only [State.withWritten, e, cond_false] using h.component State.sp

theorem stack_eq (e : i.writesStack = false) : t.stack = s.stack := by
  simpa only [State.withWritten, e, cond_false] using h.component State.stack

theorem delayTimer_eq (e : i.writesDelay = false) : t.delayTimer = s.delayTimer := by
  simpa only [State.withWritten, e, cond_false] using h.component State.delayTimer

theorem soundTimer_eq (e : i.writesSound = false) : t.soundTimer = s.soundTimer := by
  simpa only [State.withWritten, e, cond_false] using h.component State.soundTimer

theorem fb_eq (e : i.writesFb = false) : t.fb = s.fb := by
  simpa only [State.withWritten, e, cond_false] using h.component State.fb

theorem fault_eq (e : i.raises = false) : t.fault = s.fault := by
  simpa only [State.withWritten, e, cond_false] using h.component State.fault

end KeepsFrame

/-- Settles O39: the frame by the effect tables, and the host's side, which no handler writes. -/
theorem everyInstructionKeepsItsFrame : Obligations.EveryInstructionKeepsItsFrame := by
  unfold Obligations.EveryInstructionKeepsItsFrame
  intro i s t h
  have hf := keepsFrame_of_exec h
  obtain ⟨-, hregs, hbytes⟩ := keepsFrame_of_exec h
  obtain ⟨hlatch, hkeys, hinputs, hcycle, hrom, -⟩ := keepsHostSide_of_exec h
  exact ⟨hregs, hf.I_eq, hf.pc_eq, hf.sp_eq, hf.stack_eq, hf.delayTimer_eq, hf.soundTimer_eq, hf.fb_eq, hf.fault_eq,
    hbytes, hrom, hlatch, hkeys, hinputs, hcycle⟩

end Sys2Proof.Machine
end

section
/-! PROOFS. A cycle that raises no fault: what it latches and where `pc` goes (R102); and a return after a call (R25). -/

namespace Sys2Proof.Machine

theorem State.pop_of_pos {s : State} (h : 0 < s.sp.val) :
    s.pop = some (s.stack[s.sp.val - 1]'(by omega), { s with sp := ⟨s.sp.val - 1, by omega⟩ }) := by
  rcases s.pop_cases with ⟨_, e⟩ | ⟨h0, -⟩
  · exact e
  · omega

theorem State.push_of_lt {s : State} (w : Word) (h : s.sp.val < 16) :
    s.push w = some { s with stack := s.stack.set s.sp.val w, sp := ⟨s.sp.val + 1, by omega⟩ } := by
  rcases s.push_cases w with ⟨_, e⟩ | ⟨h16, -⟩
  · exact e
  · omega

theorem keyOperand_of_le {v : Byte} (h : v.toNat ≤ 0xF) : ∃ k : Reg, keyOperand v = some k := by
  rcases keyOperand_cases v with ⟨k, e, -⟩ | ⟨hlt, -⟩
  · exact ⟨k, e⟩
  · omega

/-- Fetching changes nothing that decides whether the handler raises. -/
theorem State.handlerFault_latchAndAdvance (s : State) (i : Instr) :
    s.latchAndAdvance.handlerFault i = s.handlerFault i := by
  cases i <;> rfl

/-- A handler whose condition of R231, R232 or R234 does not hold leaves the fault status alone. -/
theorem exec_fault_of_handlerFault_none {i : Instr} {s t : State} (hn : s.handlerFault i = none)
    (h : exec i s = .next t) : t.fault = s.fault := by
  cases i with
  | ret ign =>
    have hsp : 0 < s.sp.val := by simpa [State.handlerFault, Nat.pos_iff_ne_zero] using hn
    cases (exec_ret_pop (State.pop_of_pos hsp)).symm.trans h
    rfl
  | call nnn =>
    have hsp : s.sp.val ≠ 16 := by simpa [State.handlerFault] using hn
    cases (exec_call_push (State.push_of_lt s.pc (by omega))).symm.trans h
    rfl
  | skipKey x ign =>
    obtain ⟨k, hk⟩ := keyOperand_of_le (v := s.readV x) (by simpa [State.handlerFault] using hn)
    cases (exec_skipKey_key hk).symm.trans h
    rfl
  | skipNkey x ign =>
    obtain ⟨k, hk⟩ := keyOperand_of_le (v := s.readV x) (by simpa [State.handlerFault] using hn)
    cases (exec_skipNkey_key hk).symm.trans h
    rfl
  | _ => exact (keepsFrame_of_exec h).fault_eq rfl

/-- A coming cycle without a fault fetches inside memory, and its handler's condition does not hold. -/
theorem State.nextFault_none {s : State} (h : s.nextFault = none) :
    s.pc.toNat < 0xFFF ∧ s.handlerFault (decodeWord s.fetchWord) = none := by
  unfold State.nextFault at h
  split at h
  · cases h
  · exact ⟨by omega, h⟩

/-- A cycle that raises no fault is its handler, run after the fetch, and the timer stage (R100). -/
theorem runOneCycle_completes {s : State} (hf : s.fault = .none) (hn : s.nextFault = none) :
    ∃ t, exec (decodeWord s.fetchWord) s.latchAndAdvance = .next t ∧ runOneCycle s = .next t.timerStage := by
  obtain ⟨hpc, hh⟩ := State.nextFault_none hn
  obtain ⟨t, ht, -⟩ := exec_next (decodeWord s.fetchWord) s.latchAndAdvance
  have htf : t.fault = .none :=
    (exec_fault_of_handlerFault_none ((s.handlerFault_latchAndAdvance _).trans hh) ht).trans hf
  refine ⟨t, ht, ?_⟩
  rw [runOneCycle_runs hf hpc, ht, finishCycle, State.endHandler_running htf]

/-- Settles O43: the handler keeps the latched opcode, and its frame keeps the advanced `pc`; neither the timer stage nor
the host's turn writes them. -/
theorem stepLatchesAndAdvances : Obligations.StepLatchesAndAdvances := by
  unfold Obligations.StepLatchesAndAdvances
  intro s t hf hn h
  obtain ⟨u, hu, hcycle⟩ := runOneCycle_completes hf hn
  cases (step_of_cycle hcycle).symm.trans h
  obtain ⟨hlatch, -⟩ := keepsHostSide_of_exec hu
  refine ⟨by simp [hlatch], fun hpc => ?_⟩
  have hadv : u.pc = s.pc + 2 := (keepsFrame_of_exec hu).pc_eq hpc
  simp [hadv]

/-- Settles O23: the call pushed its `pc` as the most recent entry, so the return pops it. -/
theorem returnUndoesCall : Obligations.ReturnUndoesCall := by
  unfold Obligations.ReturnUndoesCall
  intro nnn ign s hsp
  refine ⟨_, exec_call_push (State.push_of_lt s.pc hsp), fun u hstack husp => ?_⟩
  have hval : u.sp.val = s.sp.val + 1 := congrArg Fin.val husp
  refine ⟨_, exec_ret_pop (State.pop_of_pos (by omega)), ?pc, ?sp, hstack⟩
  case pc => simp [hstack, hval]
  case sp => exact Fin.ext (by simp [hval])

end Sys2Proof.Machine
end

section
/-! PROOFS. `sound_timer` reaches nothing but itself (R27): each operation and each handler, run on a state with another
`sound_timer`, answers what it answers without it, but for `sound_timer`. -/

namespace Sys2Proof.Machine

/-! ### The operations that read more than one component -/

namespace State

variable (s : State) (v : Byte)

theorem setSoundTimer_dumpRegs (k : Nat) : (s.setSoundTimer v).dumpRegs k = (s.dumpRegs k).setSoundTimer v := by
  induction k with
  | zero => rfl
  | succ k ih => rw [dumpRegs, ih]; rfl

theorem setSoundTimer_loadRegs (k : Nat) : (s.setSoundTimer v).loadRegs k = (s.loadRegs k).setSoundTimer v := by
  induction k with
  | zero => rfl
  | succ k ih => rw [loadRegs, ih]; rfl

theorem setSoundTimer_drawRows (x0 y0 : Nat) (c : Canvas) (k : Nat) :
    (s.setSoundTimer v).drawRows x0 y0 c k = s.drawRows x0 y0 c k := by
  induction k with
  | zero => rfl
  | succ k ih => rw [drawRows, ih]; rfl

theorem setSoundTimer_drawSprite (x y : Reg) (n : Nat) :
    (s.setSoundTimer v).drawSprite x y n = s.drawSprite x y n :=
  s.setSoundTimer_drawRows v _ _ _ n

theorem setSoundTimer_hostTurn : (s.setSoundTimer v).hostTurn = s.hostTurn.setSoundTimer v := by
  simp only [hostTurn, setSoundTimer_inputs]
  cases s.inputs <;> rfl

theorem setSoundTimer_timerStage :
    (s.setSoundTimer v).timerStage = s.timerStage.setSoundTimer (countdownWhen s.tick v) := rfl

/-- The end of a cycle, from states with another `sound_timer` before and after the handler. -/
theorem setSoundTimer_endHandler (t : State) (v' : Byte) :
    ∃ w, (s.setSoundTimer v).endHandler (t.setSoundTimer v') = (s.endHandler t).setSoundTimer w := by
  cases hf : t.fault with
  | none =>
    rw [endHandler_running (s := t) hf, endHandler_running (s := t.setSoundTimer v') hf]
    exact ⟨_, t.setSoundTimer_timerStage v'⟩
  | faulted k p =>
    rw [endHandler_raised (s := t) hf, endHandler_raised (s := t.setSoundTimer v') hf]
    exact ⟨v, rfl⟩

end State

/-! ### The handlers, the cycle and the step -/

/-- A handler reads no `sound_timer`: from a state with another one it answers the same, but for `sound_timer` itself,
which only set-sound writes. -/
theorem exec_answers_setSoundTimer (i : Instr) (s : State) (v : Byte) :
    ∃ t w, exec i s = .next t ∧ exec i (s.setSoundTimer v) = .next (t.setSoundTimer w) := by
  cases i with
  | ret ign =>
    rcases s.pop_cases with ⟨h, -⟩ | ⟨h, -⟩
    · exact ⟨_, v, exec_ret_pop (State.pop_of_pos h), exec_ret_pop (State.pop_of_pos (s := s.setSoundTimer v) h)⟩
    · exact ⟨_, v, exec_ret_empty (State.pop_eq_none h),
        exec_ret_empty (State.pop_eq_none (s := s.setSoundTimer v) h)⟩
  | call nnn =>
    rcases s.push_cases s.pc with ⟨h, -⟩ | ⟨h, -⟩
    · exact ⟨_, v, exec_call_push (State.push_of_lt s.pc h),
        exec_call_push (State.push_of_lt (s := s.setSoundTimer v) s.pc h)⟩
    · exact ⟨_, v, exec_call_full (State.push_eq_none s.pc h),
        exec_call_full (State.push_eq_none (s := s.setSoundTimer v) s.pc h)⟩
  | skipKey x ign =>
    rcases keyOperand_cases (s.readV x) with ⟨k, e, -⟩ | ⟨-, e⟩
    · exact ⟨_, v, exec_skipKey_key e, exec_skipKey_key (s := s.setSoundTimer v) e⟩
    · exact ⟨_, v, exec_skipKey_out e, exec_skipKey_out (s := s.setSoundTimer v) e⟩
  | skipNkey x ign =>
    rcases keyOperand_cases (s.readV x) with ⟨k, e, -⟩ | ⟨-, e⟩
    · exact ⟨_, v, exec_skipNkey_key e, exec_skipNkey_key (s := s.setSoundTimer v) e⟩
    · exact ⟨_, v, exec_skipNkey_out e, exec_skipNkey_out (s := s.setSoundTimer v) e⟩
  | waitKey x =>
    rcases s.firstPressed_cases with ⟨k, e, -⟩ | ⟨e, -⟩
    · exact ⟨_, v, exec_waitKey_pressed e, exec_waitKey_pressed (s := s.setSoundTimer v) e⟩
    · exact ⟨_, v, exec_waitKey_waits e, exec_waitKey_waits (s := s.setSoundTimer v) e⟩
  | draw x y n =>
    exact ⟨_, v, rfl, by simp only [exec, execDraw, State.setSoundTimer_drawSprite]; rfl⟩
  | regDump x => exact ⟨_, v, rfl, congrArg _ (s.setSoundTimer_dumpRegs v _)⟩
  | regLoad x => exact ⟨_, v, rfl, congrArg _ (s.setSoundTimer_loadRegs v _)⟩
  | setSound x => exact ⟨_, s.readV x, rfl, rfl⟩
  | _ => exact ⟨_, v, rfl, rfl⟩

theorem runOneCycle_setSoundTimer {s t : State} (v : Byte) (h : runOneCycle s = .next t) :
    ∃ w, runOneCycle (s.setSoundTimer v) = .next (t.setSoundTimer w) := by
  rcases runOneCycle_cases s with ⟨k, p, hf, e⟩ | ⟨hf, hpc, e⟩ | ⟨hf, hpc, u, hu, -, e⟩ <;> cases e.symm.trans h
  case inl => exact ⟨v, runOneCycle_faulted (s := s.setSoundTimer v) hf⟩
  case inr.inl => exact ⟨v, runOneCycle_outOfRange (s := s.setSoundTimer v) hf hpc⟩
  case inr.inr =>
    obtain ⟨u', v', hu', hv'⟩ := exec_answers_setSoundTimer (decodeWord s.fetchWord) s.latchAndAdvance v
    cases hu'.symm.trans hu
    obtain ⟨w, hw⟩ := s.setSoundTimer_endHandler v u v'
    have hfetch : (s.setSoundTimer v).fetchWord = s.fetchWord := rfl
    have hlatch : (s.setSoundTimer v).latchAndAdvance = s.latchAndAdvance.setSoundTimer v := rfl
    exact ⟨w, by rw [runOneCycle_runs (s := s.setSoundTimer v) hf hpc, hfetch, hlatch, hv', finishCycle, hw]⟩

/-- Settles O46: the cycle with another `sound_timer` answers the same but for `sound_timer`, and so does the host's
turn after it. -/
theorem soundTimerReachesNothingElse : Obligations.SoundTimerReachesNothingElse := by
  unfold Obligations.SoundTimerReachesNothingElse
  intro s t v h
  obtain ⟨u, hu, rfl⟩ := cycle_of_step h
  obtain ⟨w, hw⟩ := runOneCycle_setSoundTimer v hu
  exact ⟨u.hostTurn.setSoundTimer w, by rw [← State.setSoundTimer_hostTurn]; exact step_of_cycle hw, rfl⟩

end Sys2Proof.Machine
end

section
/-! PROOFS. The bytes of an instruction and the addresses of its data (20_memory.md): the decoder on two bytes (R52, R70),
a placed word read back by the fetch (R56, R101), and the effective address (R55). -/

namespace Sys2Proof

theorem wordOfBytes_highByte_lowByte (w : Word) : wordOfBytes (highByte w) (lowByte w) = w := by
  apply BitVec.eq_of_toNat_eq
  have := w.isLt
  simp only [wordOfBytes_toNat, highByte, lowByte, BitVec.extractLsb'_toNat, Nat.shiftRight_eq_div_pow]
  omega

theorem tableWordBytes_16 (w : Nat) :
    tableWordBytes 16 w = [highByte (BitVec.ofNat 16 w), lowByte (BitVec.ofNat 16 w)] := by
  have hmod : BitVec.ofNat 16 (w % 2 ^ 16) = BitVec.ofNat 16 w := BitVec.eq_of_toNat_eq (by simp)
  rw [tableWordBytes, hmod]

theorem decodeTableWord_16 (w : Nat) : decodeTableWord 16 w = some (decodeWord (BitVec.ofNat 16 w)) := by
  rw [decodeTableWord, tableWordBytes_16]
  simp only [decodeBytes, wordOfBytes_highByte_lowByte]

/-- Settles O4: the word is the two bytes put together, and its number is theirs, big-endian. -/
theorem decoderTakesTwoBytesBigEndian : Obligations.DecoderTakesTwoBytesBigEndian := by
  unfold Obligations.DecoderTakesTwoBytesBigEndian
  exact ⟨fun hi lo _ => ⟨wordOfBytes hi lo, wordOfBytes_toNat hi lo, rfl⟩, fun _ => rfl, rfl⟩

end Sys2Proof

namespace Sys2Proof.Machine

namespace State

variable (s : State)

/-- A fetch from the placing address reads inside memory (R56). -/
theorem placePc_le : s.placePc.toNat ≤ 0xFFE := by
  unfold placePc
  split
  case isTrue h => exact of_decide_eq_true h
  case isFalse => decide

/-- Two bytes placed where the core fetches are the word it fetches (R52, R101). -/
theorem placeBytes_fetchWord (hi lo : Byte) : (s.placeBytes [hi, lo]).fetchWord = wordOfBytes hi lo := by
  have hread : ∀ a, (s.placeBytes [hi, lo]).readMem a =
      if s.placePc.toNat ≤ a then [hi, lo].getD (a - s.placePc.toNat) (s.readMem a) else s.readMem a :=
    Memory.read_writeBytes [hi, lo] s.memory s.placePc.toNat (Nat.add_le_add_right s.placePc_le 2)
  have hpc : (s.placeBytes [hi, lo]).pc = s.placePc := rfl
  simp [fetchWord, hpc, hread]

theorem withFetchWord_fetchWord (w : Nat) : (s.withFetchWord 16 w).fetchWord = BitVec.ofNat 16 w := by
  rw [withFetchWord, tableWordBytes_16, placeBytes_fetchWord, wordOfBytes_highByte_lowByte]

end State

/-- Settles O60: placing clears the fault and leaves `pc` where a fetch is in range, and the fetched word is the placed
number's, which is also what the table word decodes from. -/
theorem placedWordIsFetched : Obligations.PlacedWordIsFetched := by
  unfold Obligations.PlacedWordIsFetched
  intro s w hw
  refine ⟨rfl, s.placePc_le, ?word, ?decode⟩
  case word => rw [State.withFetchWord_fetchWord, BitVec.toNat_ofNat]; exact Nat.mod_eq_of_lt hw
  case decode => rw [State.withFetchWord_fetchWord, decodeTableWord_16]

/-- Settles O24: the sum is reduced modulo the size of memory, and each of the four instructions is one whose frame
keeps the fault status. -/
theorem effectiveAddressIsTheMaskedSum : Obligations.EffectiveAddressIsTheMaskedSum := by
  unfold Obligations.EffectiveAddressIsTheMaskedSum
  refine ⟨fun s k => ⟨rfl, s.ea_lt k⟩, fun s x y n i hi => ?_⟩
  have hraises : i.raises = false := by
    simp only [List.mem_cons, List.not_mem_nil, or_false] at hi
    rcases hi with rfl | rfl | rfl | rfl <;> rfl
  obtain ⟨t, ht, hframe⟩ := exec_keepsFrame i s
  exact ⟨t, ht, hframe.fault_eq hraises⟩

end Sys2Proof.Machine
end

section
/-! PROOFS. The two devices, the keys and the framebuffer, are reached only by their own instructions (R51, R241): each
operation and each handler, run on a state with other devices, answers what it answers with the state's own. -/

namespace Sys2Proof.Machine

/-- The state with other key levels and another framebuffer. -/
def State.withDevices (s : State) (ks : Vector Bool 16) (f : Framebuffer) : State := (s.setKeys ks).setFb f

/-! ### The operations that read more than one component -/

namespace State

variable (s : State) (ks : Vector Bool 16) (f : Framebuffer)

theorem withDevices_dumpRegs (k : Nat) : (s.withDevices ks f).dumpRegs k = (s.dumpRegs k).withDevices ks f := by
  induction k with
  | zero => rfl
  | succ k ih => rw [dumpRegs, ih]; rfl

theorem withDevices_loadRegs (k : Nat) : (s.withDevices ks f).loadRegs k = (s.loadRegs k).withDevices ks f := by
  induction k with
  | zero => rfl
  | succ k ih => rw [loadRegs, ih]; rfl

theorem withDevices_drawRows (x0 y0 : Nat) (c : Canvas) (k : Nat) :
    (s.withDevices ks f).drawRows x0 y0 c k = s.drawRows x0 y0 c k := by
  induction k with
  | zero => rfl
  | succ k ih => rw [drawRows, ih]; rfl

/-- A sprite is drawn on the state's own framebuffer, whatever the keys are. -/
theorem withDevices_drawSprite (x y : Reg) (n : Nat) :
    (s.withDevices ks s.fb).drawSprite x y n = s.drawSprite x y n :=
  s.withDevices_drawRows ks s.fb _ _ _ n

end State

/-! ### The handlers -/

/-- A handler answers the same with other devices, where those it does not reach may differ: the keys for a handler that
does not read them, the framebuffer for one that does not write it, which is then left as it is. -/
theorem exec_answers_withDevices (i : Instr) (s : State) (ks : Vector Bool 16) (f : Framebuffer)
    (hks : i.readsKeys = true → ks = s.keyState) (hf : i.writesFb = true → f = s.fb) :
    ∃ t, exec i s = .next t ∧
      exec i (s.withDevices ks f) = .next (t.withDevices ks (bif i.writesFb then t.fb else f)) := by
  cases i with
  | ret ign =>
    rcases s.pop_cases with ⟨h, -⟩ | ⟨h, -⟩
    · exact ⟨_, exec_ret_pop (State.pop_of_pos h), exec_ret_pop (State.pop_of_pos (s := s.withDevices ks f) h)⟩
    · exact ⟨_, exec_ret_empty (State.pop_eq_none h),
        exec_ret_empty (State.pop_eq_none (s := s.withDevices ks f) h)⟩
  | call nnn =>
    rcases s.push_cases s.pc with ⟨h, -⟩ | ⟨h, -⟩
    · exact ⟨_, exec_call_push (State.push_of_lt s.pc h),
        exec_call_push (State.push_of_lt (s := s.withDevices ks f) s.pc h)⟩
    · exact ⟨_, exec_call_full (State.push_eq_none s.pc h),
        exec_call_full (State.push_eq_none (s := s.withDevices ks f) s.pc h)⟩
  | skipKey x ign =>
    cases hks rfl
    rcases keyOperand_cases (s.readV x) with ⟨k, e, -⟩ | ⟨-, e⟩
    · exact ⟨_, exec_skipKey_key e, exec_skipKey_key (s := s.withDevices _ f) e⟩
    · exact ⟨_, exec_skipKey_out e, exec_skipKey_out (s := s.withDevices _ f) e⟩
  | skipNkey x ign =>
    cases hks rfl
    rcases keyOperand_cases (s.readV x) with ⟨k, e, -⟩ | ⟨-, e⟩
    · exact ⟨_, exec_skipNkey_key e, exec_skipNkey_key (s := s.withDevices _ f) e⟩
    · exact ⟨_, exec_skipNkey_out e, exec_skipNkey_out (s := s.withDevices _ f) e⟩
  | waitKey x =>
    cases hks rfl
    rcases s.firstPressed_cases with ⟨k, e, -⟩ | ⟨e, -⟩
    · exact ⟨_, exec_waitKey_pressed e, exec_waitKey_pressed (s := s.withDevices _ f) e⟩
    · exact ⟨_, exec_waitKey_waits e, exec_waitKey_waits (s := s.withDevices _ f) e⟩
  | draw x y n =>
    cases hf rfl
    exact ⟨_, rfl, by simp only [exec, execDraw, State.withDevices_drawSprite]; rfl⟩
  | regDump x => exact ⟨_, rfl, congrArg _ (s.withDevices_dumpRegs ks f _)⟩
  | regLoad x => exact ⟨_, rfl, congrArg _ (s.withDevices_loadRegs ks f _)⟩
  | _ => exact ⟨_, rfl, rfl⟩

/-- A handler that does not read the keys answers the same with other ones. -/
theorem exec_setKeys {i : Instr} {s t : State} (h : exec i s = .next t) (ks : Vector Bool 16)
    (hi : i.readsKeys = false) : exec i (s.setKeys ks) = .next (t.setKeys ks) := by
  obtain ⟨u, hu, hd⟩ := exec_answers_withDevices i s ks s.fb (fun e => by simp [hi] at e) (fun _ => rfl)
  cases hu.symm.trans h
  have hfb : (bif i.writesFb then t.fb else s.fb) = t.fb := by
    cases hw : i.writesFb with
    | true => rfl
    | false => exact ((keepsFrame_of_exec h).fb_eq hw).symm
  rw [hfb] at hd
  exact hd

/-- A handler that does not write the framebuffer answers the same with another one. -/
theorem exec_setFb {i : Instr} {s t : State} (h : exec i s = .next t) (f : Framebuffer) (hi : i.writesFb = false) :
    exec i (s.setFb f) = .next (t.setFb f) := by
  obtain ⟨u, hu, hd⟩ := exec_answers_withDevices i s s.keyState f (fun _ => rfl) (fun e => by simp [hi] at e)
  cases hu.symm.trans h
  obtain ⟨-, hkeys, -⟩ := keepsHostSide_of_exec h
  have hself : t.withDevices s.keyState f = t.setFb f := by rw [← hkeys]; rfl
  rw [hi, cond_false, hself] at hd
  exact hd

/-- Settles O41: setting the keys, or the framebuffer, commutes with every handler that does not reach them. -/
theorem devicesAreReachedOnlyByTheirInstructions : Obligations.DevicesAreReachedOnlyByTheirInstructions := by
  unfold Obligations.DevicesAreReachedOnlyByTheirInstructions
  exact fun i s t h => ⟨fun ks => exec_setKeys h ks, fun f => exec_setFb h f⟩

end Sys2Proof.Machine
end

section
/-! PROOFS. The encoding (30_encoding.md): the word of a well-formed instruction decodes to it, and every word is the
word of the well-formed instruction it decodes to, which is the no-op exactly on the unassigned encodings. -/

namespace Sys2Proof

/-! ### From instructions to words and back (R71, R72, R79) -/

/-- The word of a well-formed instruction decodes to it, constructor by constructor. -/
theorem decodeWord_encode : ∀ i : Instr, i.wellFormed = true → decodeWord (encode i) = i
  | .clearScreen ign => Laws.EncodeDecode.clearScreen ign
  | .ret ign => Laws.EncodeDecode.ret ign
  | .jump nnn => Laws.EncodeDecode.jump nnn
  | .call nnn => Laws.EncodeDecode.call nnn
  | .skipEqImm x kk => Laws.EncodeDecode.skipEqImm x kk
  | .skipNeImm x kk => Laws.EncodeDecode.skipNeImm x kk
  | .skipEqReg x y ign => Laws.EncodeDecode.skipEqReg x y ign
  | .loadImm x kk => Laws.EncodeDecode.loadImm x kk
  | .addImm x kk => Laws.EncodeDecode.addImm x kk
  | .move x y => Laws.EncodeDecode.move x y
  | .orReg x y => Laws.EncodeDecode.orReg x y
  | .andReg x y => Laws.EncodeDecode.andReg x y
  | .xorReg x y => Laws.EncodeDecode.xorReg x y
  | .addReg x y => Laws.EncodeDecode.addReg x y
  | .subReg x y => Laws.EncodeDecode.subReg x y
  | .shr x y => Laws.EncodeDecode.shr x y
  | .subnReg x y => Laws.EncodeDecode.subnReg x y
  | .shl x y => Laws.EncodeDecode.shl x y
  | .skipNeReg x y ign => Laws.EncodeDecode.skipNeReg x y ign
  | .setIndex nnn => Laws.EncodeDecode.setIndex nnn
  | .jumpOffset nnn => Laws.EncodeDecode.jumpOffset nnn
  | .random x kk => Laws.EncodeDecode.random x kk
  | .draw x y n => Laws.EncodeDecode.draw x y n
  | .skipKey x ign => Laws.EncodeDecode.skipKey x ign
  | .skipNkey x ign => Laws.EncodeDecode.skipNkey x ign
  | .getDelay x => Laws.EncodeDecode.getDelay x
  | .waitKey x => Laws.EncodeDecode.waitKey x
  | .setDelay x => Laws.EncodeDecode.setDelay x
  | .setSound x => Laws.EncodeDecode.setSound x
  | .addIndex x => Laws.EncodeDecode.addIndex x
  | .glyphAddr x => Laws.EncodeDecode.glyphAddr x
  | .bcdStore x => Laws.EncodeDecode.bcdStore x
  | .regDump x => Laws.EncodeDecode.regDump x
  | .regLoad x => Laws.EncodeDecode.regLoad x
  | .nopSys ign s4 => Laws.EncodeDecode.nopSys ign s4
  | .nopAlu x y s4 => Laws.EncodeDecode.nopAlu x y s4
  | .nopKey x ign s4 => Laws.EncodeDecode.nopKey x ign s4
  | .nopMisc x s8 => Laws.EncodeDecode.nopMisc x s8

/-- Settles O1: the family of laws EncodeDecode, one for each constructor. -/
theorem decodeOfEncodeIsIdentity : Obligations.DecodeOfEncodeIsIdentity :=
  decodeWord_encode

/-! ### The unassigned sub-codes as numbers (R75 to R78, R80) -/

theorem unassignedSys_iff (s : Nibble) : unassignedSys s = true ↔ s.toNat ≠ 0x0 ∧ s.toNat ≠ 0xE := by
  simp [unassignedSys, BitVec.toNat_eq]

theorem unassignedAlu_iff (s : Nibble) : unassignedAlu s = true ↔ 0x8 ≤ s.toNat ∧ s.toNat ≠ 0xE := by
  simp [unassignedAlu, BitVec.toNat_eq, BitVec.le_def]

theorem unassignedKey_iff (s : Nibble) : unassignedKey s = true ↔ s.toNat ≠ 0x1 ∧ s.toNat ≠ 0xE := by
  simp [unassignedKey, BitVec.toNat_eq]

theorem unassignedMisc_iff (b : Byte) : unassignedMisc b = true ↔
    b.toNat ∉ [0x07, 0x0A, 0x15, 0x18, 0x1E, 0x29, 0x33, 0x55, 0x65] := by
  simp [unassignedMisc, assignedMisc, BitVec.toNat_eq]

/-- The unassigned encodings, by the fields the two-level dispatch looks at. -/
theorem unassignedEncoding_iff (w : Word) : unassignedEncoding w ↔
    ((fieldT w).toNat = 0x0 ∧ unassignedSys (fieldS4 w) = true) ∨
    ((fieldT w).toNat = 0x8 ∧ unassignedAlu (fieldS4 w) = true) ∨
    ((fieldT w).toNat = 0xE ∧ unassignedKey (fieldS4 w) = true) ∨
    ((fieldT w).toNat = 0xF ∧ unassignedMisc (fieldKk w) = true) := by
  rw [unassignedSys_iff, unassignedAlu_iff, unassignedKey_iff, unassignedMisc_iff, fieldT_toNat, fieldS4_toNat,
    fieldKk_toNat]
  exact Iff.rfl

/-! ### A word from its layout, the fixed fields known as numbers (R72) -/

section

variable {w : Word} {t s : Nibble}

theorem formatA_eq_word (ht : (fieldT w).toNat = t.toNat) : formatA t (fieldNnn w) = w := by
  rw [← BitVec.eq_of_toNat_eq ht, formatA_of_fields]

theorem formatXK_eq_word (ht : (fieldT w).toNat = t.toNat) : formatXK t (fieldX w) (fieldKk w) = w := by
  rw [← BitVec.eq_of_toNat_eq ht, formatXK_of_fields]

theorem formatXYS_eq_word (ht : (fieldT w).toNat = t.toNat) :
    formatXYS t (fieldX w) (fieldY w) (fieldS4 w) = w := by
  rw [← BitVec.eq_of_toNat_eq ht, formatXYS_of_fields]

theorem formatZ_sub_eq_word (ht : (fieldT w).toNat = 0x0) (hs : (fieldS4 w).toNat = s.toNat) :
    formatZ (fieldMid w) s = w := by
  rw [← BitVec.eq_of_toNat_eq hs, formatZ_of_fields ht]

theorem formatXYS_sub_eq_word (ht : (fieldT w).toNat = t.toNat) (hs : (fieldS4 w).toNat = s.toNat) :
    formatXYS t (fieldX w) (fieldY w) s = w := by
  rw [← BitVec.eq_of_toNat_eq hs, formatXYS_eq_word ht]

theorem formatXS4_sub_eq_word (ht : (fieldT w).toNat = 0xE) (hs : (fieldS4 w).toNat = s.toNat) :
    formatXS4 (fieldX w) (fieldB4 w) s = w := by
  rw [← BitVec.eq_of_toNat_eq hs, formatXS4_of_fields ht]

theorem formatXK_sub_eq_word {kk : Byte} (ht : (fieldT w).toNat = t.toNat) (hk : (fieldKk w).toNat = kk.toNat) :
    formatXK t (fieldX w) kk = w := by
  rw [← BitVec.eq_of_toNat_eq hk, formatXK_eq_word ht]

end

/-! ### The instruction of a word (R79, R80) -/

/-- `i` is the instruction of `w`: well formed, with `w` as its word, and the no-op exactly if `w` is unassigned. -/
def IsInstrOf (w : Word) (i : Instr) : Prop :=
  i.wellFormed = true ∧ encode i = w ∧ (i.isNop = true ↔ unassignedEncoding w)

section

variable {w : Word}

/-- Top nibble 0x0 (R75). -/
theorem decodeTop0_isInstrOf (ht : (fieldT w).toNat = 0x0) : IsInstrOf w (decodeTop0 w) := by
  have hnop : unassignedEncoding w ↔ unassignedSys (fieldS4 w) = true := by simp [unassignedEncoding_iff, ht]
  rw [IsInstrOf, hnop]
  unfold decodeTop0
  split
  case h_3 h0 hE =>
    have hs : unassignedSys (fieldS4 w) = true := (unassignedSys_iff _).mpr ⟨h0, hE⟩
    exact ⟨hs, formatZ_of_fields ht, iff_of_true rfl hs⟩
  all_goals
    rename_i hs
    exact ⟨rfl, formatZ_sub_eq_word ht hs, by simp [Instr.isNop, unassignedSys_iff, hs]⟩

/-- Top nibble 0x8 (R76). -/
theorem decodeTop8_isInstrOf (ht : (fieldT w).toNat = 0x8) : IsInstrOf w (decodeTop8 w) := by
  have hnop : unassignedEncoding w ↔ unassignedAlu (fieldS4 w) = true := by simp [unassignedEncoding_iff, ht]
  rw [IsInstrOf, hnop]
  unfold decodeTop8
  split
  case h_10 =>
    have hs : unassignedAlu (fieldS4 w) = true := by
      simp only [imp_false] at *
      rw [unassignedAlu_iff]
      omega
    exact ⟨hs, formatXYS_eq_word ht, iff_of_true rfl hs⟩
  all_goals
    rename_i hs
    exact ⟨rfl, formatXYS_sub_eq_word ht hs, by simp [Instr.isNop, unassignedAlu_iff, hs]⟩

/-- Top nibble 0xE (R77). -/
theorem decodeTopE_isInstrOf (ht : (fieldT w).toNat = 0xE) : IsInstrOf w (decodeTopE w) := by
  have hnop : unassignedEncoding w ↔ unassignedKey (fieldS4 w) = true := by simp [unassignedEncoding_iff, ht]
  rw [IsInstrOf, hnop]
  unfold decodeTopE
  split
  case h_3 hE h1 =>
    have hs : unassignedKey (fieldS4 w) = true := (unassignedKey_iff _).mpr ⟨h1, hE⟩
    exact ⟨hs, formatXS4_of_fields ht, iff_of_true rfl hs⟩
  all_goals
    rename_i hs
    exact ⟨rfl, formatXS4_sub_eq_word ht hs, by simp [Instr.isNop, unassignedKey_iff, hs]⟩

/-- Top nibble 0xF (R78). -/
theorem decodeTopF_isInstrOf (ht : (fieldT w).toNat = 0xF) : IsInstrOf w (decodeTopF w) := by
  have hnop : unassignedEncoding w ↔ unassignedMisc (fieldKk w) = true := by simp [unassignedEncoding_iff, ht]
  rw [IsInstrOf, hnop]
  unfold decodeTopF
  split
  case h_10 =>
    have hk : unassignedMisc (fieldKk w) = true := by
      simp only [imp_false] at *
      simp only [unassignedMisc_iff, List.mem_cons, List.not_mem_nil, or_false]
      omega
    exact ⟨hk, formatXK_eq_word ht, iff_of_true rfl hk⟩
  all_goals
    rename_i hk
    exact ⟨rfl, formatXK_sub_eq_word ht hk, by simp [Instr.isNop, unassignedMisc_iff, hk]⟩

/-- Where the top nibble alone decides, no encoding is unassigned (R74, R80), so only the layout is left to check. -/
theorem isInstrOf_of_oneLevel {t : Nat} {i : Instr} (ht : (fieldT w).toNat = t)
    (hlevel : t ≠ 0x0 ∧ t ≠ 0x8 ∧ t ≠ 0xE ∧ t ≠ 0xF) (hwf : i.wellFormed = true) (hnop : i.isNop = false)
    (hword : encode i = w) : IsInstrOf w i := by
  refine ⟨hwf, hword, iff_of_false (by simp [hnop]) ?_⟩
  rw [unassignedEncoding_iff]
  omega

end

/-- Every word decodes to its instruction. -/
theorem decodeWord_isInstrOf (w : Word) : IsInstrOf w (decodeWord w) := by
  unfold decodeWord
  split
  case h_1 ht => exact decodeTop0_isInstrOf ht
  case h_9 ht => exact decodeTop8_isInstrOf ht
  case h_15 ht => exact decodeTopE_isInstrOf ht
  case h_16 =>
    have hlt := (fieldT w).isLt
    simp only [imp_false] at *
    exact decodeTopF_isInstrOf (by omega)
  case h_2 ht | h_3 ht | h_11 ht | h_12 ht =>
    exact isInstrOf_of_oneLevel ht (by decide) rfl rfl (formatA_eq_word ht)
  case h_4 ht | h_5 ht | h_7 ht | h_8 ht | h_13 ht =>
    exact isInstrOf_of_oneLevel ht (by decide) rfl rfl (formatXK_eq_word ht)
  case h_6 ht | h_10 ht => exact isInstrOf_of_oneLevel ht (by decide) rfl rfl (formatXYS_eq_word ht)
  case h_14 ht =>
    exact isInstrOf_of_oneLevel ht (by decide) rfl rfl (by rw [encode, ofNat_fieldN, formatXYS_eq_word ht])

/-- Settles O2: what a word decodes to is its instruction. -/
theorem everyWordIsTheWordOfItsInstruction : Obligations.EveryWordIsTheWordOfItsInstruction := by
  unfold Obligations.EveryWordIsTheWordOfItsInstruction
  intro w
  obtain ⟨hwf, henc, -⟩ := decodeWord_isInstrOf w
  exact ⟨hwf, henc⟩

/-- Settles O5: what a word decodes to is its instruction, and so the no-op exactly on the unassigned encodings. -/
theorem noOpExactlyOnUnassignedEncodings : Obligations.NoOpExactlyOnUnassignedEncodings := by
  unfold Obligations.NoOpExactlyOnUnassignedEncodings
  intro w
  obtain ⟨-, -, hnop⟩ := decodeWord_isInstrOf w
  exact hnop

/-- Settles O3, by running the decoder on the fifteen words. -/
theorem writtenOutWordsDecode : Obligations.WrittenOutWordsDecode := by
  unfold Obligations.WrittenOutWordsDecode
  decide

end Sys2Proof

namespace Sys2Proof.Machine

/-! ### The handlers and the bits their formats ignore (R72) -/

/-- Settles O6: each of these handlers is defined without the field in question. -/
theorem ignoredBitsChangeNothing : Obligations.IgnoredBitsChangeNothing := by
  unfold Obligations.IgnoredBitsChangeNothing
  exact fun _ => ⟨fun _ _ => ⟨rfl, rfl⟩, fun _ _ _ _ => ⟨rfl, rfl⟩, fun _ _ _ => ⟨rfl, rfl⟩,
    fun _ _ _ => ⟨rfl, rfl⟩⟩

end Sys2Proof.Machine
end

section
/-! PROOFS. Every state steps, and the reset state is not about to fault (R75, R250). -/

namespace Sys2Proof.Machine

/-- Settles O52: a faulted core, a fetch out of range and a handler's run each end the cycle in a next state, and the
host's turn follows. -/
theorem everyStateSteps : Obligations.EveryStateSteps := by
  unfold Obligations.EveryStateSteps
  intro s
  rcases runOneCycle_cases s with ⟨_, _, -, hfaulted⟩ | ⟨-, -, hrange⟩ | ⟨-, -, _, -, -, hruns⟩
  · exact ⟨_, step_of_cycle hfaulted⟩
  · exact ⟨_, step_of_cycle hrange⟩
  · exact ⟨_, step_of_cycle hruns⟩

theorem State.FaultExplained.of_running {s : State} (h : s.Running) : s.FaultExplained :=
  fun _ _ hf => nomatch h.symm.trans hf

/-- Reset memory holds no program: both bytes at the reset vector are 0 (R29, R252). -/
theorem reset_fetchWord : State.reset.fetchWord = 0x0000 := by
  decide

/-- Settles O54: the first word is clear-screen's, which raises no fault (R75). -/
theorem resetIsNotFaulted : Obligations.ResetIsNotFaulted := by
  unfold Obligations.ResetIsNotFaulted
  have hrunning : State.reset.Running := rfl
  refine ⟨hrunning, .of_running hrunning, ?conforms⟩
  have hdecode : decodeWord 0x0000 = .clearScreen 0x00 := decodeWord_encode (.clearScreen 0x00) rfl
  rw [State.Conforms, State.nextFault, reset_fetchWord, hdecode]
  rfl

end Sys2Proof.Machine
end

section
/-! PROOFS. The cycle (40_cycle_and_dispatch.md): a fetch in range runs the decoded instruction's handler (R100), the
timer stage follows it (R107), the no-op's cycle is the fetch and that stage (R108), a faulted core stands still (R109). -/

namespace Sys2Proof.Machine

/-! ### From a handler's answer to the cycle and the step -/

section

variable {s t : State} (hf : s.fault = .none) (hpc : s.pc.toNat ≤ 0xFFE)
  (h : exec (decodeWord s.fetchWord) s.latchAndAdvance = .next t)

include hf hpc h

/-- A handler that answers without a fault leaves the rest of the cycle to the timer stage (R100). -/
theorem runOneCycle_of_exec_running (ht : t.fault = .none) : runOneCycle s = .next t.timerStage := by
  rw [runOneCycle_runs hf (by omega), h, finishCycle, State.endHandler_running ht]

/-- Of a handler that raises, the cycle keeps the fault alone (R235). -/
theorem runOneCycle_of_exec_raised {k : Fault} {p : Word} (ht : t.fault = .faulted k p) :
    runOneCycle s = .next (s.enterFault k p) := by
  rw [runOneCycle_runs hf (by omega), h, finishCycle, State.endHandler_raised ht]

theorem step_of_exec_running (ht : t.fault = .none) : step s = .next t.timerStage.hostTurn :=
  step_of_cycle (runOneCycle_of_exec_running hf hpc h ht)

theorem step_of_exec_raised {k : Fault} {p : Word} (ht : t.fault = .faulted k p) :
    step s = .next (s.enterFault k p).hostTurn :=
  step_of_cycle (runOneCycle_of_exec_raised hf hpc h ht)

end

/-- Settles O42: the two bytes decode as the fetched word does, and its handler answers a next state, which the end of
the cycle takes up according to the fault it records. -/
theorem stepRunsTheDecodedInstruction : Obligations.StepRunsTheDecodedInstruction := by
  unfold Obligations.StepRunsTheDecodedInstruction
  intro s i hf hpc hdecode
  obtain rfl : decodeWord s.fetchWord = i := congrArg Prod.fst (Except.ok.inj hdecode)
  obtain ⟨hwf, -, -⟩ := decodeWord_isInstrOf s.fetchWord
  obtain ⟨t, ht, -⟩ := exec_next (decodeWord s.fetchWord) s.latchAndAdvance
  exact ⟨hwf, t, ht, step_of_exec_running hf hpc ht, fun _ _ => step_of_exec_raised hf hpc ht⟩

/-! ### The timer stage -/

theorem State.timerStage_of_not_tick {s : State} (h : s.tick = false) : s.timerStage = s := by
  simp only [State.timerStage, countdownWhen, h, Bool.false_eq_true, if_false]

/-- Settles O44: without `tick` neither timer is written, and with it each is counted down as a number. -/
theorem timerStageCountsDown : Obligations.TimerStageCountsDown := by
  unfold Obligations.TimerStageCountsDown
  refine fun s => ⟨State.timerStage_of_not_tick, fun h => ⟨rfl, ?delay, ?sound⟩⟩
  case delay => rw [State.timerStage_delayTimer, countdownWhen_toNat, if_pos h]
  case sound => rw [State.timerStage_soundTimer, countdownWhen_toNat, if_pos h]

/-- Settles O45: the handler runs on the fetched state, whose timers and registers are those before the cycle, and its
answer then goes through the timer stage; the host's turn reaches neither. -/
theorem countdownFollowsTheHandler : Obligations.CountdownFollowsTheHandler := by
  unfold Obligations.CountdownFollowsTheHandler
  refine fun s x hf hpc => ⟨fun hd => ?getDelay, fun hd => ?setDelay, fun hd => ?setSound⟩
  case getDelay =>
    have hstep : step s = .next (s.latchAndAdvance.writeV x s.delayTimer).timerStage.hostTurn :=
      step_of_exec_running hf hpc (by rw [hd]; rfl) hf
    exact ⟨_, hstep, by simp, by simp [countdownWhen_toNat]⟩
  case setDelay =>
    have hstep : step s = .next (s.latchAndAdvance.setDelayTimer (s.readV x)).timerStage.hostTurn :=
      step_of_exec_running hf hpc (by rw [hd]; rfl) hf
    exact ⟨_, hstep, by simp [countdownWhen_toNat]⟩
  case setSound =>
    have hstep : step s = .next (s.latchAndAdvance.setSoundTimer (s.readV x)).timerStage.hostTurn :=
      step_of_exec_running hf hpc (by rw [hd]; rfl) hf
    exact ⟨_, hstep, by simp [countdownWhen_toNat]⟩

/-! ### The no-op -/

/-- The four no-op constructors run the one handler that changes nothing (R81, R108). -/
theorem exec_of_isNop {i : Instr} (h : i.isNop = true) (s : State) : exec i s = .next s := by
  cases i with
  | nopSys ign s4 | nopAlu x y s4 | nopKey x ign s4 | nopMisc x s8 => rfl
  | _ => cases h

theorem exec_of_unassignedEncoding {w : Word} (h : unassignedEncoding w) (s : State) :
    exec (decodeWord w) s = .next s :=
  exec_of_isNop ((noOpExactlyOnUnassignedEncodings w).mpr h) s

/-- Settles O22: an unassigned encoding decodes to a no-op, so its cycle is the fetch and the timer stage. -/
theorem noOpChangesNothing : Obligations.NoOpChangesNothing := by
  unfold Obligations.NoOpChangesNothing
  refine ⟨fun s x y m s8 ign s4 => ?terms, fun w s hw => exec_of_unassignedEncoding hw s, fun s hf hpc hw => ?cycle⟩
  case terms => exact ⟨exec_of_isNop rfl s, exec_of_isNop rfl s, exec_of_isNop rfl s, exec_of_isNop rfl s⟩
  case cycle => exact runOneCycle_of_exec_running hf hpc (exec_of_unassignedEncoding hw s.latchAndAdvance) hf

/-! ### A faulted core -/

/-- A load that is not refused writes memory alone (R253). -/
theorem State.loadImage_frame {s t : State} {image : List Byte} (h : State.loadImage image s = .next t) :
    t = { s with memory := t.memory } := by
  unfold State.loadImage at h
  split at h <;> cases h
  rfl

/-- Settles O50: the cycle of a faulted core is the identity, the host's writes of the keys and of an image do not reach
the fault status, and the return to reset values clears it (R250). -/
theorem faultedCoreDoesNotStep : Obligations.FaultedCoreDoesNotStep := by
  unfold Obligations.FaultedCoreDoesNotStep
  refine fun s k p hf => ⟨runOneCycle_faulted hf, fun keys => hf, fun image t h => ?load, rfl⟩
  case load => rw [State.loadImage_frame h]; exact hf

end Sys2Proof.Machine
end

section
/-! PROOFS. The cycle's `rnd` and the host's schedule reach only the random handler (R104), which masks `rnd` (R153). -/

namespace Sys2Proof.Machine

/-- The state with another schedule of inputs and another count of cycles, the two fields `rnd` is taken from. -/
def State.withSchedule (s : State) (js : List CycleInput) (c : Nat) : State := { s with inputs := js, cycle := c }

/-! ### The operations that read more than one component -/

namespace State

variable (s : State) (js : List CycleInput) (c : Nat)

theorem withSchedule_dumpRegs (k : Nat) : (s.withSchedule js c).dumpRegs k = (s.dumpRegs k).withSchedule js c := by
  induction k with
  | zero => rfl
  | succ k ih => rw [dumpRegs, ih]; rfl

theorem withSchedule_loadRegs (k : Nat) : (s.withSchedule js c).loadRegs k = (s.loadRegs k).withSchedule js c := by
  induction k with
  | zero => rfl
  | succ k ih => rw [loadRegs, ih]; rfl

theorem withSchedule_drawRows (x0 y0 : Nat) (d : Canvas) (k : Nat) :
    (s.withSchedule js c).drawRows x0 y0 d k = s.drawRows x0 y0 d k := by
  induction k with
  | zero => rfl
  | succ k ih => rw [drawRows, ih]; rfl

theorem withSchedule_drawSprite (x y : Reg) (n : Nat) :
    (s.withSchedule js c).drawSprite x y n = s.drawSprite x y n :=
  s.withSchedule_drawRows js c _ _ _ n

end State

/-! ### The handlers -/

/-- Every handler but random answers the same with another schedule, which it leaves as it is. -/
theorem exec_answers_withSchedule (i : Instr) (s : State) (js : List CycleInput) (c : Nat)
    (hi : i.readsRnd = false) :
    ∃ t, exec i s = .next t ∧ exec i (s.withSchedule js c) = .next (t.withSchedule js c) := by
  cases i with
  | random x kk => cases hi
  | ret ign =>
    rcases s.pop_cases with ⟨h, -⟩ | ⟨h, -⟩
    · exact ⟨_, exec_ret_pop (State.pop_of_pos h), exec_ret_pop (State.pop_of_pos (s := s.withSchedule js c) h)⟩
    · exact ⟨_, exec_ret_empty (State.pop_eq_none h),
        exec_ret_empty (State.pop_eq_none (s := s.withSchedule js c) h)⟩
  | call nnn =>
    rcases s.push_cases s.pc with ⟨h, -⟩ | ⟨h, -⟩
    · exact ⟨_, exec_call_push (State.push_of_lt s.pc h),
        exec_call_push (State.push_of_lt (s := s.withSchedule js c) s.pc h)⟩
    · exact ⟨_, exec_call_full (State.push_eq_none s.pc h),
        exec_call_full (State.push_eq_none (s := s.withSchedule js c) s.pc h)⟩
  | skipKey x ign =>
    rcases keyOperand_cases (s.readV x) with ⟨k, e, -⟩ | ⟨-, e⟩
    · exact ⟨_, exec_skipKey_key e, exec_skipKey_key (s := s.withSchedule js c) e⟩
    · exact ⟨_, exec_skipKey_out e, exec_skipKey_out (s := s.withSchedule js c) e⟩
  | skipNkey x ign =>
    rcases keyOperand_cases (s.readV x) with ⟨k, e, -⟩ | ⟨-, e⟩
    · exact ⟨_, exec_skipNkey_key e, exec_skipNkey_key (s := s.withSchedule js c) e⟩
    · exact ⟨_, exec_skipNkey_out e, exec_skipNkey_out (s := s.withSchedule js c) e⟩
  | waitKey x =>
    rcases s.firstPressed_cases with ⟨k, e, -⟩ | ⟨e, -⟩
    · exact ⟨_, exec_waitKey_pressed e, exec_waitKey_pressed (s := s.withSchedule js c) e⟩
    · exact ⟨_, exec_waitKey_waits e, exec_waitKey_waits (s := s.withSchedule js c) e⟩
  | draw x y n => exact ⟨_, rfl, by simp only [exec, execDraw, State.withSchedule_drawSprite]; rfl⟩
  | regDump x => exact ⟨_, rfl, congrArg _ (s.withSchedule_dumpRegs js c _)⟩
  | regLoad x => exact ⟨_, rfl, congrArg _ (s.withSchedule_loadRegs js c _)⟩
  | _ => exact ⟨_, rfl, rfl⟩

/-- Settles O40: setting the schedule and the count commutes with every handler but random. -/
theorem onlyRandomReadsTheDraw : Obligations.OnlyRandomReadsTheDraw := by
  unfold Obligations.OnlyRandomReadsTheDraw
  intro i s t js c hi h
  obtain ⟨u, hu, hsched⟩ := exec_answers_withSchedule i s js c hi
  cases hu.symm.trans h
  exact hsched

/-! ### The random handler -/

theorem State.rnd_of_inputs_cons {s : State} {c : CycleInput} {rest : List CycleInput} (h : s.inputs = c :: rest) :
    s.rnd = c.rnd := by
  simp only [State.rnd, h]

/-- Settles O15: the word is the encoding of random, and the one register written holds the masked draw. -/
theorem randomMasksTheCyclesDraw : Obligations.RandomMasksTheCyclesDraw := by
  unfold Obligations.RandomMasksTheCyclesDraw
  refine fun x kk => ⟨decodeWord_encode (.random x kk) rfl, fun s => ?_⟩
  have hread : (s.writeV x (s.rnd &&& kk)).readV x = s.rnd &&& kk := s.readV_writeV_self x _
  refine ⟨_, rfl, rfl, hread, fun c rest hc => ?decided, ?masked, fun r hr => s.readV_writeV_ne hr _⟩
  case decided => rw [hread, State.rnd_of_inputs_cons hc]
  case masked => rw [hread, BitVec.and_assoc, BitVec.and_not_self]; exact BitVec.and_zero

end Sys2Proof.Machine
end

section
/-! PROOFS. Control transfer (41_flow.md): where each instruction sends `pc`, and the cycles of return and call that
fault. -/

namespace Sys2Proof.Machine

/-! ### Address operands as numbers (R73) -/

@[simp] theorem addrOperand_toNat (nnn : Addr12) : (addrOperand nnn).toNat = nnn.toNat :=
  BitVec.toNat_setWidth_of_le (by decide)

@[simp] theorem State.wideV_toNat (s : State) (r : Reg) : (s.wideV r).toNat = (s.readV r).toNat :=
  BitVec.toNat_setWidth_of_le (by decide)

/-- The target of jump-offset does not wrap: it is at most 0xFFF + 0xFF (R127). -/
theorem State.addrOperand_add_wideV_toNat (s : State) (nnn : Addr12) (r : Reg) :
    (addrOperand nnn + s.wideV r).toNat = nnn.toNat + (s.readV r).toNat := by
  have hnnn := nnn.isLt
  have hv := (s.readV r).isLt
  rw [BitVec.toNat_add_of_lt (by rw [addrOperand_toNat, wideV_toNat]; omega), addrOperand_toNat, wideV_toNat]

/-! ### The skips -/

theorem State.skipIf_beq {α : Type} [DecidableEq α] (s : State) (a b : α) :
    s.skipIf (a == b) = { s with pc := if a = b then s.pc + 2 else s.pc } := by
  by_cases h : a = b <;> simp [State.skipIf, h]

theorem State.skipIf_bne {α : Type} [DecidableEq α] (s : State) (a b : α) :
    s.skipIf (a != b) = { s with pc := if a = b then s.pc else s.pc + 2 } := by
  by_cases h : a = b <;> simp [State.skipIf, h]

/-! ### The faulting cycles -/

/-- A handler that raises on the fetched state records the `pc` before the fetch: the fetch's advance by 2 and the
fault's step back by 2 cancel (R102, R235). -/
theorem runOneCycle_of_raise {s : State} {i : Instr} {k : Fault} (hf : s.fault = .none) (hpc : s.pc.toNat ≤ 0xFFE)
    (hd : decodeWord s.fetchWord = i) (h : exec i s.latchAndAdvance = s.latchAndAdvance.raise k) :
    runOneCycle s = .next { s with fault := .faulted k s.pc } := by
  have hback : s.latchAndAdvance.pc - 2 = s.pc := BitVec.add_sub_cancel s.pc 2
  rw [runOneCycle_of_exec_raised hf hpc (hd ▸ h) rfl, hback, State.enterFault]

/-! ### The statements -/

/-- Settles O16: return pops the most recent entry, and has nothing to pop exactly when `sp` is 0. -/
theorem returnPopsOrUnderflows : Obligations.ReturnPopsOrUnderflows := by
  unfold Obligations.ReturnPopsOrUnderflows
  refine fun ign => ⟨decodeWord_encode (.ret ign) rfl, fun s => ⟨fun hsp => ?pops, fun hf hpc hd hsp => ?underflows⟩⟩
  case pops =>
    exact ⟨_, exec_ret_pop (State.pop_of_pos hsp), rfl, rfl, Vector.getElem?_eq_getElem _⟩
  case underflows =>
    exact runOneCycle_of_raise hf hpc hd (exec_ret_empty (State.pop_eq_none (s := s.latchAndAdvance) hsp))

/-- Settles O17: the target is the address field, widened. -/
theorem jumpGoesToItsAddress : Obligations.JumpGoesToItsAddress := by
  unfold Obligations.JumpGoesToItsAddress
  exact fun nnn => ⟨decodeWord_encode (.jump nnn) rfl, fun s => ⟨_, rfl, rfl, addrOperand_toNat nnn⟩⟩

/-- Settles O18: call pushes `pc` at entry `sp`, and has no room exactly when `sp` is 16. -/
theorem callPushesOrOverflows : Obligations.CallPushesOrOverflows := by
  unfold Obligations.CallPushesOrOverflows
  refine fun nnn => ⟨decodeWord_encode (.call nnn) rfl, fun s => ⟨fun hsp => ?pushes, fun hf hpc hd hsp => ?overflows⟩⟩
  case pushes =>
    refine ⟨_, exec_call_push (State.push_of_lt s.pc hsp), rfl, addrOperand_toNat nnn, rfl, ?entry, fun j hj => ?others⟩
    case entry => exact Vector.getElem?_set_self hsp
    case others => exact Vector.getElem?_set_ne hsp hj.symm
  case overflows =>
    exact runOneCycle_of_raise hf hpc hd (exec_call_full (State.push_eq_none (s := s.latchAndAdvance) _ hsp))

/-- Settles O19: each skip is a test of `V[x]` against the immediate byte. -/
theorem skipImmComparesWithItsByte : Obligations.SkipImmComparesWithItsByte := by
  unfold Obligations.SkipImmComparesWithItsByte
  refine fun x kk => ⟨decodeWord_encode (.skipEqImm x kk) rfl, decodeWord_encode (.skipNeImm x kk) rfl,
    fun s => ⟨?eq, ?ne⟩⟩
  case eq => exact congrArg _ (s.skipIf_beq (s.readV x) kk)
  case ne => exact congrArg _ (s.skipIf_bne (s.readV x) kk)

/-- Settles O20: each skip is a test of `V[x]` against `V[y]`, the ignored nibble unread. -/
theorem skipRegComparesTwoRegisters : Obligations.SkipRegComparesTwoRegisters := by
  unfold Obligations.SkipRegComparesTwoRegisters
  refine fun x y ign => ⟨decodeWord_encode (.skipEqReg x y ign) rfl, decodeWord_encode (.skipNeReg x y ign) rfl,
    fun s => ⟨?eq, ?ne⟩⟩
  case eq => exact congrArg _ (s.skipIf_beq (s.readV x) (s.readV y))
  case ne => exact congrArg _ (s.skipIf_bne (s.readV x) (s.readV y))

/-- Settles O21: the target is the exact sum of the address field and V0. -/
theorem jumpOffsetAddsV0 : Obligations.JumpOffsetAddsV0 := by
  unfold Obligations.JumpOffsetAddsV0
  exact fun nnn => ⟨decodeWord_encode (.jumpOffset nnn) rfl,
    fun s => ⟨_, rfl, rfl, s.addrOperand_add_wideV_toNat nnn 0⟩⟩

end Sys2Proof.Machine
end

section
/-! PROOFS. Register and arithmetic instructions (42_alu.md): the results and flags as numbers (R140), what the two
shapes of register write leave behind (R141), and the statements. -/

namespace Sys2Proof.Machine

/-! ### The results as numbers, modulo 256 (R140) -/

theorem byte_sub_toNat (a b : Byte) : (a - b).toNat = (a.toNat + 256 - b.toNat) % 256 := by
  rw [BitVec.toNat_sub]
  omega

theorem byte_shiftRight_one_toNat (a : Byte) : (a >>> 1).toNat = a.toNat / 2 := by
  rw [BitVec.toNat_ushiftRight, Nat.shiftRight_eq_div_pow]

theorem byte_shiftLeft_one_toNat (a : Byte) : (a <<< 1).toNat = a.toNat * 2 % 256 := by
  rw [BitVec.toNat_shiftLeft, Nat.shiftLeft_eq]

/-! ### The flags -/

theorem flagByte_decide (p : Prop) [Decidable p] : flagByte (decide p) = if p then 1 else 0 := by
  simp only [flagByte, decide_eq_true_eq]

theorem flagByte_decide_eq_one_iff (p : Prop) [Decidable p] : flagByte (decide p) = 1 ↔ p := by
  by_cases h : p <;> simp [flagByte, h]

theorem carryFlag_eq (a b : Byte) : carryFlag a b = if 255 < a.toNat + b.toNat then 1 else 0 :=
  flagByte_decide _

theorem notBorrowFlag_eq (a b : Byte) : notBorrowFlag a b = if b.toNat ≤ a.toNat then 1 else 0 :=
  flagByte_decide _

theorem subnFlag_eq (b r : Byte) : subnFlag b r = if r.toNat < b.toNat then 1 else 0 :=
  flagByte_decide _

/-- The quirk flag is set where the difference does not wrap and takes something away (R151): a wrapped difference lies
above `b`, and taking 0 away leaves `b` itself. -/
theorem subnFlag_sub_eq_one_iff (a b : Byte) :
    subnFlag b (b - a) = 1 ↔ 0 < a.toNat ∧ a.toNat ≤ b.toNat := by
  have ha := a.isLt
  have hb := b.isLt
  rw [subnFlag, flagByte_decide_eq_one_iff, byte_sub_toNat]
  omega

theorem and_one_toNat (a : Byte) : (a &&& 1).toNat = a.toNat % 2 :=
  Nat.and_one_is_mod a.toNat

theorem lowBitFlag_toNat (a : Byte) : (lowBitFlag a).toNat = a.toNat % 2 := and_one_toNat a

/-- What is left of a byte above bit 6 is bit 7 alone. -/
theorem highBitFlag_toNat (a : Byte) : (highBitFlag a).toNat = a.toNat / 128 := by
  have ha := a.isLt
  rw [highBitFlag, and_one_toNat, BitVec.toNat_ushiftRight, Nat.shiftRight_eq_div_pow]
  omega

/-! ### What a handler leaves behind -/

/-- A handler that writes one register changes that register alone. -/
theorem exec_writeV_spec {i : Instr} {s : State} {x : Reg} {v : Byte} (h : exec i s = .next (s.writeV x v)) :
    ∃ t, exec i s = .next t ∧ t = { s with V := t.V } ∧ t.readV x = v ∧ ∀ r, r ≠ x → t.readV r = s.readV r :=
  ⟨_, h, rfl, s.readV_writeV_self x v, fun _ hr => s.readV_writeV_ne hr v⟩

/-- A handler that writes a result and then a flag: VF holds the flag even where it is the destination (R141). -/
theorem exec_writeResultFlag_spec {i : Instr} {s : State} {x : Reg} {v f : Byte}
    (h : exec i s = .next (s.writeResultFlag x v f)) :
    ∃ t, exec i s = .next t ∧ t = { s with V := t.V } ∧ (x ≠ regF → t.readV x = v) ∧ t.readV regF = f ∧
      ∀ r, r ≠ x → r ≠ regF → t.readV r = s.readV r := by
  refine ⟨_, h, s.writeResultFlag_frame x v f, fun hx => ?result, ?flag, fun r hr hrF => ?others⟩
  case result => rw [State.readV_writeResultFlag, if_neg hx, if_pos rfl]
  case flag => rw [State.readV_writeResultFlag, if_pos rfl]
  case others => rw [State.readV_writeResultFlag, if_neg hrF, if_neg hr]

/-! ### The statements -/

/-- Settles O7: the byte is written as it stands. -/
theorem loadImmWritesItsByte : Obligations.LoadImmWritesItsByte := by
  unfold Obligations.LoadImmWritesItsByte
  exact fun x kk => ⟨decodeWord_encode (.loadImm x kk) rfl, fun s => exec_writeV_spec rfl⟩

/-- Settles O8: the one register written holds the sum of two bytes. -/
theorem addImmAddsModulo256 : Obligations.AddImmAddsModulo256 := by
  unfold Obligations.AddImmAddsModulo256
  refine fun x kk => ⟨decodeWord_encode (.addImm x kk) rfl, fun s => ?_⟩
  obtain ⟨t, ht, hframe, hx, hothers⟩ := exec_writeV_spec (i := .addImm x kk) (s := s) rfl
  exact ⟨t, ht, hframe, by rw [hx, BitVec.toNat_add], hothers⟩

/-- Settles O9: each of the four writes its result to `V[x]`, as any register. -/
theorem moveOrAndXorWriteOnlyTheirDestination : Obligations.MoveOrAndXorWriteOnlyTheirDestination := by
  unfold Obligations.MoveOrAndXorWriteOnlyTheirDestination
  exact fun x y => ⟨decodeWord_encode (.move x y) rfl, decodeWord_encode (.orReg x y) rfl,
    decodeWord_encode (.andReg x y) rfl, decodeWord_encode (.xorReg x y) rfl,
    fun s => ⟨exec_writeV_spec rfl, exec_writeV_spec rfl, exec_writeV_spec rfl, exec_writeV_spec rfl⟩⟩

/-- Settles O10: the result is the sum of two bytes, and the flag compares the exact sum with 255. -/
theorem addRegSumsAndCarries : Obligations.AddRegSumsAndCarries := by
  unfold Obligations.AddRegSumsAndCarries
  refine fun x y => ⟨decodeWord_encode (.addReg x y) rfl, fun s => ?_⟩
  obtain ⟨t, ht, hframe, hx, hF, hothers⟩ := exec_writeResultFlag_spec (i := .addReg x y) (s := s) rfl
  exact ⟨t, ht, hframe, fun hne => by rw [hx hne, BitVec.toNat_add], by rw [hF, carryFlag_eq], hothers⟩

/-- Settles O11: the flag compares the operands as they were before the difference is written. -/
theorem subRegSubtractsAndReportsNoBorrow : Obligations.SubRegSubtractsAndReportsNoBorrow := by
  unfold Obligations.SubRegSubtractsAndReportsNoBorrow
  refine fun x y => ⟨decodeWord_encode (.subReg x y) rfl, fun s => ?_⟩
  obtain ⟨t, ht, hframe, hx, hF, hothers⟩ := exec_writeResultFlag_spec (i := .subReg x y) (s := s) rfl
  exact ⟨t, ht, hframe, fun hne => by rw [hx hne, byte_sub_toNat], by rw [hF, notBorrowFlag_eq], hothers⟩

/-- Settles O12: result and flag are the quotient and the remainder of the old `V[x]` by 2. -/
theorem shrHalvesAndReportsBit0 : Obligations.ShrHalvesAndReportsBit0 := by
  unfold Obligations.ShrHalvesAndReportsBit0
  refine fun x y => ⟨decodeWord_encode (.shr x y) rfl, fun s => ?_⟩
  obtain ⟨t, ht, hframe, hx, hF, hothers⟩ := exec_writeResultFlag_spec (i := .shr x y) (s := s) rfl
  exact ⟨t, ht, hframe, fun hne => by rw [hx hne, byte_shiftRight_one_toNat], by rw [hF, lowBitFlag_toNat], hothers⟩

/-- Settles O13: the flag compares the old `V[y]` with the difference, from which its bounds on the old `V[x]` follow. -/
theorem subnRegSubtractsAndSetsTheQuirkFlag : Obligations.SubnRegSubtractsAndSetsTheQuirkFlag := by
  unfold Obligations.SubnRegSubtractsAndSetsTheQuirkFlag
  refine fun x y => ⟨decodeWord_encode (.subnReg x y) rfl, fun s => ?_⟩
  obtain ⟨t, ht, hframe, hx, hF, hothers⟩ := exec_writeResultFlag_spec (i := .subnReg x y) (s := s) rfl
  refine ⟨t, ht, hframe, fun hne => ?difference, ?flag, ?bounds, hothers⟩
  case difference => rw [hx hne, byte_sub_toNat]
  case flag => rw [hF, subnFlag_eq, byte_sub_toNat]
  case bounds => rw [hF, subnFlag_sub_eq_one_iff]

/-- Settles O14: the doubled byte loses bit 7, which the flag keeps. -/
theorem shlDoublesAndReportsBit7 : Obligations.ShlDoublesAndReportsBit7 := by
  unfold Obligations.ShlDoublesAndReportsBit7
  refine fun x y => ⟨decodeWord_encode (.shl x y) rfl, fun s => ?_⟩
  obtain ⟨t, ht, hframe, hx, hF, hothers⟩ := exec_writeResultFlag_spec (i := .shl x y) (s := s) rfl
  exact ⟨t, ht, hframe, fun hne => by rw [hx hne, byte_shiftLeft_one_toNat], by rw [hF, highBitFlag_toNat], hothers⟩

end Sys2Proof.Machine
end

section
/-! PROOFS. Index register and memory instructions (43_index_memory.md): the values of `I` and the digits as numbers,
the glyph area of memory (R251), what the transfers of V0 to Vx do register by register, and the statements. -/

namespace Sys2Proof.Machine

/-! ### The address of a glyph, and the digits of a byte, as numbers (R172, R173) -/

/-- The address does not wrap: it is at most 0x050 + 5 * 0xFF (R172). -/
@[simp] theorem glyphAddress_toNat (v : Byte) : (glyphAddress v).toNat = 0x050 + 5 * v.toNat := by
  have hv := v.isLt
  have hlt : Config.glyphBase + 5 * v.toNat < 2 ^ 16 := by rw [Config.glyphBase]; omega
  rw [glyphAddress, BitVec.toNat_ofNat, Nat.mod_eq_of_lt hlt]

theorem byte_hundreds_toNat (v : Byte) : (v / 100).toNat = v.toNat / 100 := BitVec.toNat_udiv

theorem byte_tens_toNat (v : Byte) : (v / 10 % 10).toNat = v.toNat / 10 % 10 := by
  rw [BitVec.toNat_umod, BitVec.toNat_udiv]
  rfl

theorem byte_ones_toNat (v : Byte) : (v % 10).toNat = v.toNat % 10 := BitVec.toNat_umod

/-! ### Effective addresses and reads (R55, R60) -/

theorem State.ea_ne (s : State) {j k : Nat} (hj : j < Config.memSize) (hk : k < Config.memSize) (hne : j ≠ k) :
    s.ea j ≠ s.ea k :=
  fun e => hne (s.ea_inj hj hk e)

/-- An effective address depends on `I` alone (R55). -/
theorem State.ea_congr {s t : State} (hI : t.I = s.I) (k : Nat) : t.ea k = s.ea k := by
  rw [ea, hI, ea]

/-- A read depends on memory alone. -/
theorem State.readMem_congr {s t : State} (hm : t.memory = s.memory) (a : Nat) : t.readMem a = s.readMem a := by
  rw [readMem, hm, readMem]

/-- A read after the three stores of bcd-store: the last store to an address stands. -/
theorem State.readMem_writeEa_three (s : State) (b₀ b₁ b₂ : Byte) (a : Nat) :
    (((s.writeEa 0 b₀).writeEa 1 b₁).writeEa 2 b₂).readMem a =
      if a = s.ea 2 then b₂ else if a = s.ea 1 then b₁ else if a = s.ea 0 then b₀ else s.readMem a := by
  simp only [readMem_writeEa, writeEa_ea]

/-! ### The glyph area of memory at reset (R54, R251) -/

theorem Memory.read_of_cells_nil {m : Memory} (h : m.cells = []) (a : Nat) : m.read a = m.initialByte a := by
  rw [read, h, lookupCell, Option.getD_none]

/-- Row `k` of glyph `d` is reset content of byte `5 * d + k` of the glyph area: dividing by 5 takes the two apart
again. -/
theorem Memory.initialByte_glyph (m : Memory) (d : Fin 16) (k : Fin 5) :
    m.initialByte (0x050 + 5 * d.val + k.val) = m.glyphRom[d.val][k.val] := by
  have hd := d.isLt
  have hk := k.isLt
  have hin : Config.glyphBase ≤ 0x050 + 5 * d.val + k.val ∧ 0x050 + 5 * d.val + k.val < Config.glyphBase + 80 := by
    simp only [Config.glyphBase]; omega
  have hdiv : (0x050 + 5 * d.val + k.val - Config.glyphBase) / 5 = d.val := by simp only [Config.glyphBase]; omega
  have hmod : (0x050 + 5 * d.val + k.val - Config.glyphBase) % 5 = k.val := by simp only [Config.glyphBase]; omega
  rw [initialByte, dif_pos hin]
  simp only [hdiv, hmod]

/-- The address of a digit's glyph is far from the end of memory, so its five bytes are reached without a wrap. -/
theorem State.ea_of_glyph {s : State} (d : Fin 16) (k : Fin 5) (hI : s.I.toNat = 0x050 + 5 * d.val) :
    s.ea k.val = 0x050 + 5 * d.val + k.val := by
  have hd := d.isLt
  have hk := k.isLt
  rw [ea, hI, Config.memSize]
  omega

/-! ### The transfers of V0 to Vx, register by register (R174, R175) -/

/-- Everything reg-dump does (R174). -/
theorem exec_regDump_spec (x : Reg) (s : State) :
    ∃ t, exec (.regDump x) s = .next t ∧ t = { s with memory := t.memory } ∧
      (∀ r : Reg, r ≤ x → t.readMem (s.ea r.val) = s.readV r) ∧
      ∀ a, (∀ r : Reg, r ≤ x → a ≠ s.ea r.val) → t.readMem a = s.readMem a := by
  have hx := x.isLt
  obtain ⟨hstored, hothers, hframe, -, -⟩ := s.dumpRegs_spec (k := x.val + 1) hx
  refine ⟨_, rfl, hframe, fun r hr => ?stored, fun a ha => hothers a fun j hj => ?other⟩
  case stored => rw [hstored r.val (Nat.lt_succ_of_le hr), Fin.ofNat_val_eq_self]
  case other => exact ha ⟨j, by omega⟩ (Nat.le_of_lt_succ hj)

/-- Everything reg-load does (R175). -/
theorem exec_regLoad_spec (x : Reg) (s : State) :
    ∃ t, exec (.regLoad x) s = .next t ∧ t = { s with V := t.V } ∧
      ∀ r : Reg, t.readV r = if r ≤ x then s.readMem (s.ea r.val) else s.readV r := by
  obtain ⟨hread, hframe⟩ := s.loadRegs_spec (k := x.val + 1) x.isLt
  refine ⟨_, rfl, hframe, fun r => ?_⟩
  have hle : r.val < x.val + 1 ↔ r ≤ x := Nat.lt_succ_iff
  rw [hread, if_congr hle rfl rfl, State.readEa]

/-! ### The statements -/

/-- Settles O29: the stores reach different bytes, so each one stands. -/
theorem regDumpStoresV0ToVx : Obligations.RegDumpStoresV0ToVx := by
  unfold Obligations.RegDumpStoresV0ToVx
  exact fun x => ⟨decodeWord_encode (.regDump x) rfl, exec_regDump_spec x⟩

/-- Settles O30: the loads write different registers and no memory, so each one reads memory as it was. -/
theorem regLoadLoadsV0ToVx : Obligations.RegLoadLoadsV0ToVx := by
  unfold Obligations.RegLoadLoadsV0ToVx
  exact fun x => ⟨decodeWord_encode (.regLoad x) rfl, exec_regLoad_spec x⟩

/-- Settles O31: with the same `I` and memory the load reads the very bytes the dump stored. -/
theorem regLoadUndoesRegDump : Obligations.RegLoadUndoesRegDump := by
  unfold Obligations.RegLoadUndoesRegDump
  intro x s
  obtain ⟨t, ht, -, hstored, -⟩ := exec_regDump_spec x s
  refine ⟨t, ht, fun u hmem hI => ?_⟩
  obtain ⟨w, hw, -, hloaded⟩ := exec_regLoad_spec x u
  refine ⟨w, hw, fun r => ?_⟩
  have hback : r ≤ x → u.readMem (u.ea r.val) = s.readV r := fun hr => by
    rw [State.readMem_congr hmem, State.ea_congr hI, hstored r hr]
  rw [hloaded]
  exact ite_congr rfl hback fun _ => rfl

/-- Settles O32: `I` is the address of the digit's glyph in the glyph area, where memory still holds its reset
content. -/
theorem glyphAddrFindsTheGlyph : Obligations.GlyphAddrFindsTheGlyph := by
  unfold Obligations.GlyphAddrFindsTheGlyph
  refine fun x s d hcells hd => ⟨s.setI (glyphAddress (s.readV x)), rfl, fun k => ?_⟩
  have hI : (s.setI (glyphAddress (s.readV x))).I.toNat = 0x050 + 5 * d.val := by
    rw [← hd]; exact glyphAddress_toNat _
  rw [State.readEa, State.ea_of_glyph d k hI]
  exact (Memory.read_of_cells_nil hcells _).trans (s.memory.initialByte_glyph d k)

/-- Settles O25: `I` becomes the address field, widened. -/
theorem setIndexWritesItsAddress : Obligations.SetIndexWritesItsAddress := by
  unfold Obligations.SetIndexWritesItsAddress
  exact fun nnn => ⟨decodeWord_encode (.setIndex nnn) rfl, fun s => ⟨_, rfl, rfl, addrOperand_toNat nnn⟩⟩

/-- Settles O26: the sum is that of two words, so it wraps at 16 bits and nowhere earlier. -/
theorem addIndexWrapsAt16Bits : Obligations.AddIndexWrapsAt16Bits := by
  unfold Obligations.AddIndexWrapsAt16Bits
  refine fun x => ⟨decodeWord_encode (.addIndex x) rfl, fun s => ⟨_, rfl, rfl, ?_⟩⟩
  calc (s.I + s.wideV x).toNat
      = (s.I.toNat + (s.wideV x).toNat) % 65536 := BitVec.toNat_add _ _
    _ = (s.I.toNat + (s.readV x).toNat) % 65536 := by rw [State.wideV_toNat]

/-- Settles O27: the address is computed from the whole register and does not wrap. -/
theorem glyphAddrScalesTheWholeRegister : Obligations.GlyphAddrScalesTheWholeRegister := by
  unfold Obligations.GlyphAddrScalesTheWholeRegister
  exact fun x => ⟨decodeWord_encode (.glyphAddr x) rfl, fun s => ⟨_, rfl, rfl, glyphAddress_toNat (s.readV x)⟩⟩

/-- Settles O28: the three stores reach different bytes, so each digit stands. -/
theorem bcdStoreStoresThreeDigits : Obligations.BcdStoreStoresThreeDigits := by
  unfold Obligations.BcdStoreStoresThreeDigits
  refine fun x => ⟨decodeWord_encode (.bcdStore x) rfl, fun s => ?_⟩
  have h01 : s.ea 0 ≠ s.ea 1 := s.ea_ne (by decide) (by decide) (by decide)
  have h02 : s.ea 0 ≠ s.ea 2 := s.ea_ne (by decide) (by decide) (by decide)
  have h12 : s.ea 1 ≠ s.ea 2 := s.ea_ne (by decide) (by decide) (by decide)
  refine ⟨_, rfl, rfl, ?hundreds, ?tens, ?ones, fun a h0 h1 h2 => ?others⟩ <;> rw [State.readMem_writeEa_three]
  case hundreds => rw [if_neg h02, if_neg h01, if_pos rfl, byte_hundreds_toNat]
  case tens => rw [if_neg h12, if_pos rfl, byte_tens_toNat]
  case ones => rw [if_pos rfl, byte_ones_toNat]
  case others => rw [if_neg h2, if_neg h1, if_neg h0]

end Sys2Proof.Machine
end

section
/-! PROOFS. Display instructions (44_display.md): what a whole draw does to a cell and what its detector reports, in the
terms of the sprite's picture, and the statements. -/

namespace Sys2Proof.Machine

/-! ### Cells inside the bounds, and the flag (R193, R194) -/

theorem inBounds_iff (col row : Nat) : inBounds col row = true ↔ col < 64 ∧ row < 32 := by
  rw [inBounds, Bool.and_eq_true, decide_eq_true_eq, decide_eq_true_eq]

theorem Framebuffer.inBounds_of_lit {f : Framebuffer} {col row : Nat} (h : Framebuffer.lit f col row = true) :
    col < 64 ∧ row < 32 := by
  rw [← inBounds_iff]
  by_contra hout
  rw [Framebuffer.lit_outside f (Bool.eq_false_of_not_eq_true hout)] at h
  exact Bool.false_ne_true h

theorem flagByte_eq_one_iff (c : Bool) : flagByte c = 1 ↔ c = true := by
  cases c <;> decide

theorem flagByte_eq_zero_or_one (c : Bool) : flagByte c = 0 ∨ flagByte c = 1 := by
  cases c <;> decide

/-! ### The whole draw, as the picture of its sprite (R192) -/

namespace State

/-- A sprite's picture depends on `I` and memory alone (R190). -/
theorem spriteBit_congr {s t : State} (hI : t.I = s.I) (hm : t.memory = s.memory) (x0 y0 n col row : Nat) :
    t.spriteBit x0 y0 n col row = s.spriteBit x0 y0 n col row := by
  have hread : t.readEa (row - y0) = s.readEa (row - y0) := by
    rw [readEa, readMem_congr hm, ea_congr hI, readEa]
  rw [spriteBit, hread, spriteBit]

variable (s : State) (x y : Reg) (n : Nat)

/-- Inside the bounds a draw toggles exactly the cells under a set bit of the sprite (R190, R194). -/
theorem drawSprite_lit {col row : Nat} (hcol : col < 64) (hrow : row < 32) :
    Framebuffer.lit (s.drawSprite x y n).fb col row =
      (Framebuffer.lit s.fb col row ^^ s.spriteBit (s.startCol x) (s.startRow y) n col row) := by
  have hin : inBounds col row = true := (inBounds_iff col row).mpr ⟨hcol, hrow⟩
  obtain ⟨hcells, -⟩ := s.drawRows_spec (s.startCol x) (s.startRow y) { fb := s.fb, collision := false } n
  exact (hcells col row).trans (by rw [hin, Bool.and_true])

/-- The detector starts at 0 and reports a set bit of the sprite on a lit cell, which lies inside the bounds (R193). -/
theorem drawSprite_collision :
    (s.drawSprite x y n).collision = true ↔ ∃ col row, col < 64 ∧ row < 32 ∧
      s.spriteBit (s.startCol x) (s.startRow y) n col row = true ∧ Framebuffer.lit s.fb col row = true := by
  obtain ⟨-, hdetector⟩ := s.drawRows_spec (s.startCol x) (s.startRow y) { fb := s.fb, collision := false } n
  refine hdetector.trans ⟨?reported, ?present⟩
  case reported =>
    rintro (hstart | ⟨col, row, hbit, hlit⟩)
    · exact absurd hstart Bool.false_ne_true
    · obtain ⟨hcol, hrow⟩ := Framebuffer.inBounds_of_lit hlit
      exact ⟨col, row, hcol, hrow, hbit, hlit⟩
  case present =>
    rintro ⟨col, row, -, -, hbit, hlit⟩
    exact .inr ⟨col, row, hbit, hlit⟩

end State

/-- Everything draw does (R192, R193, R194). -/
theorem exec_draw_spec (x y : Reg) (n : Fin 16) (s : State) :
    ∃ t, exec (.draw x y n) s = .next t ∧ t = { s with V := t.V, fb := t.fb } ∧
      (∀ r, r ≠ regF → t.readV r = s.readV r) ∧
      (∀ col row, col < 64 → row < 32 → Framebuffer.lit t.fb col row =
        (Framebuffer.lit s.fb col row ^^ s.spriteBit (s.startCol x) (s.startRow y) n.val col row)) ∧
      (t.readV regF = 0 ∨ t.readV regF = 1) ∧
      (t.readV regF = 1 ↔ ∃ col row, col < 64 ∧ row < 32 ∧
        s.spriteBit (s.startCol x) (s.startRow y) n.val col row = true ∧ Framebuffer.lit s.fb col row = true) := by
  refine ⟨_, rfl, rfl, fun r hr => ?others, fun col row hcol hrow => ?cells, ?flag, ?detector⟩
  case others => rw [State.readV_writeV_ne _ hr, State.setFb_readV]
  case cells => exact s.drawSprite_lit x y n.val hcol hrow
  case flag => rw [State.readV_writeV_self]; exact flagByte_eq_zero_or_one _
  case detector => rw [State.readV_writeV_self, flagByte_eq_one_iff, State.drawSprite_collision]

/-! ### The statements -/

/-- Settles O34: the sprite's rows, one after the other, toggle the cells of its picture, and VF holds the detector. -/
theorem drawTogglesTheSpriteAndReportsCollision : Obligations.DrawTogglesTheSpriteAndReportsCollision := by
  unfold Obligations.DrawTogglesTheSpriteAndReportsCollision
  exact fun x y n => ⟨decodeWord_encode (.draw x y n) rfl, exec_draw_spec x y n⟩

/-- Settles O35: both draws toggle by the same picture, since the first keeps `I` and memory; so each cell comes back, and
under a set bit the second draw finds lit what the first found unlit. -/
theorem drawingTwiceRestoresTheScreen : Obligations.DrawingTwiceRestoresTheScreen := by
  unfold Obligations.DrawingTwiceRestoresTheScreen
  intro x y n s t hst hcol hrow
  obtain ⟨t', ht, hframe, -, hfirst, -, -⟩ := exec_draw_spec x y n s
  cases ht.symm.trans hst
  obtain ⟨u, hu, -, -, hsecond, -, hflag⟩ := exec_draw_spec x y n t
  have hI : t.I = s.I := by rw [hframe]
  have hmem : t.memory = s.memory := by rw [hframe]
  simp only [hcol, hrow, State.spriteBit_congr hI hmem] at hsecond hflag
  refine ⟨u, hu, Framebuffer.ext_lit fun col row => ?restored, hflag.trans ?collision⟩
  case restored =>
    cases hin : inBounds col row with
    | true =>
      obtain ⟨hc, hr⟩ := (inBounds_iff col row).mp hin
      rw [hsecond col row hc hr, hfirst col row hc hr, Bool.xor_assoc, Bool.xor_self, Bool.xor_false]
    | false => rw [Framebuffer.lit_outside _ hin, Framebuffer.lit_outside _ hin]
  case collision =>
    refine exists_congr fun col => exists_congr fun row => and_congr_right fun hc => and_congr_right fun hr =>
      and_congr_right fun hbit => ?_
    rw [hfirst col row hc hr, hbit, Bool.xor_true, Bool.not_eq_true']

/-- Settles O33: the framebuffer becomes the blank one, whatever the ignored bits are. -/
theorem clearScreenUnlightsEveryCell : Obligations.ClearScreenUnlightsEveryCell := by
  unfold Obligations.ClearScreenUnlightsEveryCell
  exact fun ign => ⟨decodeWord_encode (.clearScreen ign) rfl, fun s => ⟨_, rfl, rfl, Framebuffer.lit_blank⟩⟩

end Sys2Proof.Machine
end

section
/-! PROOFS. Key and timer instructions (45_keys_timers.md): the key a register names, the lowest pressed key, what a
waiting cycle leaves of its fetch, and the statements. -/

namespace Sys2Proof.Machine

/-! ### The key number, and the key scan (R210, R212) -/

theorem keyOperand_eq_some {v : Byte} {k : Reg} (h : v.toNat = k.val) : keyOperand v = some k := by
  rcases keyOperand_cases v with ⟨j, e, hj⟩ | ⟨hlt, -⟩
  · rw [e, Fin.ext (hj.trans h)]
  · omega

/-- A key's number fits in a register. -/
theorem byte_ofNat_key_toNat (k : Reg) : (BitVec.ofNat 8 k.val).toNat = k.val := by
  have hk := k.isLt
  rw [BitVec.toNat_ofNat, Nat.mod_eq_of_lt (by omega)]

namespace State

/-- The scan ends at the one pressed key with no pressed key below it. -/
theorem firstPressed_eq_some {s : State} {k : Reg} (hk : s.keyPressed k = true)
    (hbelow : ∀ j, j < k → s.keyPressed j = false) : s.firstPressed = some k := by
  rcases s.firstPressed_cases with ⟨k', e, hk', hbelow'⟩ | ⟨-, hnone⟩
  · have hle : k ≤ k' := not_lt.mp fun hlt => by simp [hbelow k' hlt] at hk'
    have hge : k' ≤ k := not_lt.mp fun hlt => by simp [hbelow' k hlt] at hk
    rw [e, le_antisymm hge hle]
  · simp [hnone k] at hk

theorem firstPressed_eq_none {s : State} (h : ∀ k, s.keyPressed k = false) : s.firstPressed = none := by
  rcases s.firstPressed_cases with ⟨k, -, hk, -⟩ | ⟨e, -⟩
  · simp [h k] at hk
  · exact e

theorem skipIf_not (s : State) (c : Bool) : s.skipIf (!c) = { s with pc := if c then s.pc else s.pc + 2 } := by
  cases c <;> rfl

/-- Stepping `pc` back by 2 after the fetch leaves of the fetch the latched word alone (R102, R212). -/
theorem latchAndAdvance_setPc_back (s : State) :
    s.latchAndAdvance.setPc (s.latchAndAdvance.pc - 2) = { s with latchedOpcode := s.fetchWord } := by
  rw [latchAndAdvance_pc, BitVec.add_sub_cancel]
  rfl

end State

/-! ### The statements -/

/-- Settles O37: the key scan decides between the register write and the step back, which in a whole cycle undoes the
fetch's advance. -/
theorem waitKeyTakesTheLowestKeyOrWaits : Obligations.WaitKeyTakesTheLowestKeyOrWaits := by
  unfold Obligations.WaitKeyTakesTheLowestKeyOrWaits
  refine fun x => ⟨decodeWord_encode (.waitKey x) rfl, fun s =>
    ⟨fun k hk hbelow => ?pressed, fun hnone => ?waits, fun hf hpc hd hnone => ?waitingCycle⟩⟩
  case pressed =>
    obtain ⟨t, ht, hframe, hx, hothers⟩ :=
      exec_writeV_spec (exec_waitKey_pressed (x := x) (State.firstPressed_eq_some hk hbelow))
    exact ⟨t, ht, hframe, by rw [hx, byte_ofNat_key_toNat], hothers⟩
  case waits => exact exec_waitKey_waits (State.firstPressed_eq_none hnone)
  case waitingCycle =>
    have hexec : exec (decodeWord s.fetchWord) s.latchAndAdvance = .next { s with latchedOpcode := s.fetchWord } := by
      rw [hd, exec_waitKey_waits (State.firstPressed_eq_none (s := s.latchAndAdvance) hnone),
        State.latchAndAdvance_setPc_back]
    exact runOneCycle_of_exec_running hf hpc hexec hf

/-- Settles O36: a register up to F names a key, whose level the skips test; one above F names none, and either handler
raises. -/
theorem keySkipsReadOneKeyOrFault : Obligations.KeySkipsReadOneKeyOrFault := by
  unfold Obligations.KeySkipsReadOneKeyOrFault
  refine fun x ign => ⟨decodeWord_encode (.skipKey x ign) rfl, decodeWord_encode (.skipNkey x ign) rfl,
    fun s => ⟨fun k hk => ⟨?skipKey, ?skipNkey⟩, fun hf hpc hd hout => ?faults⟩⟩
  case skipKey => exact exec_skipKey_key (keyOperand_eq_some hk)
  case skipNkey => rw [exec_skipNkey_key (keyOperand_eq_some hk), State.skipIf_not]
  case faults =>
    have hnone : keyOperand (s.latchAndAdvance.readV x) = none := keyOperand_eq_none hout
    rcases hd with hd | hd
    · exact runOneCycle_of_raise hf hpc hd (exec_skipKey_out hnone)
    · exact runOneCycle_of_raise hf hpc hd (exec_skipNkey_out hnone)

/-- Settles O38: get-delay writes the one register, and the other two write the timer they name. -/
theorem timerInstructionsMoveOneByte : Obligations.TimerInstructionsMoveOneByte := by
  unfold Obligations.TimerInstructionsMoveOneByte
  exact fun x => ⟨decodeWord_encode (.getDelay x) rfl, decodeWord_encode (.setDelay x) rfl,
    decodeWord_encode (.setSound x) rfl, fun s => ⟨exec_writeV_spec rfl, rfl, rfl⟩⟩

end Sys2Proof.Machine
end

section
/-! PROOFS. Faults (60_exceptions.md): where the condition of a kind holds, the cycle records that kind and keeps
nothing else (R230, R235); and the record goes on telling the truth of the core that stopped. -/

namespace Sys2Proof.Machine

/-! ### From the condition to the raise (R230 to R234) -/

/-- A handler whose condition of R231, R232 or R234 holds raises that kind. -/
theorem exec_raise_of_handlerFault_some {i : Instr} {s : State} {k : Fault} (h : s.handlerFault i = some k) :
    exec i s = s.raise k := by
  cases i with
  | call nnn =>
    obtain ⟨hsp, rfl⟩ : s.sp.val = 16 ∧ Fault.stackOverflow = k := by simpa [State.handlerFault] using h
    exact exec_call_full (State.push_eq_none s.pc hsp)
  | ret ign =>
    obtain ⟨hsp, rfl⟩ : s.sp.val = 0 ∧ Fault.stackUnderflow = k := by simpa [State.handlerFault] using h
    exact exec_ret_empty (State.pop_eq_none hsp)
  | skipKey x ign =>
    obtain ⟨hx, rfl⟩ : 0xF < (s.readV x).toNat ∧ Fault.keyIndexOutOfRange = k := by
      simpa [State.handlerFault] using h
    exact exec_skipKey_out (keyOperand_eq_none hx)
  | skipNkey x ign =>
    obtain ⟨hx, rfl⟩ : 0xF < (s.readV x).toNat ∧ Fault.keyIndexOutOfRange = k := by
      simpa [State.handlerFault] using h
    exact exec_skipNkey_out (keyOperand_eq_none hx)
  | _ => exact nomatch h

/-- A coming cycle with a fault fetches out of range, or its handler's condition holds (R236). -/
theorem State.nextFault_some {s : State} {k : Fault} (h : s.nextFault = some k) :
    (0xFFF ≤ s.pc.toNat ∧ k = .fetchOutOfRange) ∨
    (s.pc.toNat ≤ 0xFFE ∧ s.handlerFault (decodeWord s.fetchWord) = some k) := by
  unfold State.nextFault at h
  split at h
  · cases h
    exact .inl ⟨‹_›, rfl⟩
  · exact .inr ⟨by omega, h⟩

/-! ### The two kinds of cycle of a core that is not faulted -/

/-- Where no condition holds, the cycle ends without a fault: neither the handler nor the timer stage records one. -/
theorem runOneCycle_running {s : State} (hf : s.fault = .none) (hn : s.nextFault = none) :
    ∃ t, runOneCycle s = .next t ∧ t.fault = .none := by
  obtain ⟨-, hh⟩ := State.nextFault_none hn
  obtain ⟨t, ht, hcycle⟩ := runOneCycle_completes hf hn
  have htf : t.fault = s.latchAndAdvance.fault :=
    exec_fault_of_handlerFault_none ((s.handlerFault_latchAndAdvance _).trans hh) ht
  exact ⟨t.timerStage, hcycle, htf.trans hf⟩

/-- Where one holds, the cycle answers the state it started from with the fault recorded at its `pc` (R235). -/
theorem runOneCycle_raises {s : State} {k : Fault} (hf : s.fault = .none) (hn : s.nextFault = some k) :
    runOneCycle s = .next { s with fault := .faulted k s.pc } := by
  rcases State.nextFault_some hn with ⟨hpc, rfl⟩ | ⟨hpc, hh⟩
  · exact runOneCycle_outOfRange hf hpc
  · exact runOneCycle_of_raise hf hpc rfl
      (exec_raise_of_handlerFault_some ((s.handlerFault_latchAndAdvance _).trans hh))

/-- Settles O48: without a condition the cycle completes, with one it raises, and the core that it leaves faulted stands
still (R109). -/
theorem cyclesFaultExactlyWhereTheRulesSay : Obligations.CyclesFaultExactlyWhereTheRulesSay := by
  unfold Obligations.CyclesFaultExactlyWhereTheRulesSay
  exact fun s hf => ⟨runOneCycle_running hf, fun k hn => ⟨runOneCycle_raises hf hn, runOneCycle_faulted rfl⟩⟩

/-! ### The record of a fault stays explained -/

/-- The state a raising cycle answers is explained: recording the fault touches nothing its condition reads. -/
theorem State.FaultExplained.of_recorded {s : State} {k : Fault} (hn : s.nextFault = some k) :
    State.FaultExplained { s with fault := .faulted k s.pc } := by
  intro k' p' h
  cases h
  exact ⟨rfl, (State.nextFault_congr rfl rfl rfl rfl).trans hn⟩

/-- The host's turn reaches the keys and the schedule, which explain no fault. -/
theorem State.FaultExplained.hostTurn {s : State} (h : s.FaultExplained) : s.hostTurn.FaultExplained := by
  intro k p hf
  obtain ⟨hp, hn⟩ := h k p (s.hostTurn_fault.symm.trans hf)
  have hnext : s.hostTurn.nextFault = s.nextFault :=
    State.nextFault_congr s.hostTurn_pc s.hostTurn_memory s.hostTurn_sp s.hostTurn_V
  exact ⟨hp.trans s.hostTurn_pc.symm, hnext.trans hn⟩

theorem runOneCycle_keeps_faultExplained {s t : State} (hs : s.FaultExplained) (h : runOneCycle s = .next t) :
    t.FaultExplained := by
  cases hf : s.fault with
  | faulted k p =>
    cases (runOneCycle_faulted hf).symm.trans h
    exact hs
  | none =>
    cases hn : s.nextFault with
    | none =>
      obtain ⟨u, hu, hrunning⟩ := runOneCycle_running hf hn
      cases hu.symm.trans h
      exact .of_running hrunning
    | some k =>
      cases (runOneCycle_raises hf hn).symm.trans h
      exact .of_recorded hn

/-- Settles O53: the cycle keeps the invariant, and so does the host's turn. -/
theorem stepKeepsFaultsExplained : Obligations.StepKeepsFaultsExplained := by
  unfold Obligations.StepKeepsFaultsExplained
  intro s t hs h
  obtain ⟨u, hu, rfl⟩ := cycle_of_step h
  exact (runOneCycle_keeps_faultExplained hs hu).hostTurn

end Sys2Proof.Machine
end

section
/-! PROOFS. The host's operations outside a cycle (70_reset_and_hazards.md): what memory holds after `initialize` (R250)
and after a load (R253), and the statements. -/

namespace Sys2Proof.Machine

/-! ### What memory holds after `initialize` -/

/-- Outside the glyph area the reset content of memory is 0 (R54, R250). -/
theorem Memory.initialByte_of_outside (m : Memory) {a : Nat} (ha : a < 0x050 ∨ 0x09F < a) : m.initialByte a = 0 := by
  have hout : ¬ (Config.glyphBase ≤ a ∧ a < Config.glyphBase + 80) := by rw [Config.glyphBase]; omega
  rw [initialByte, dif_neg hout]

/-- After `initialize` every byte reads as its reset content, from the `GLYPH_ROM` the machine had (R250, R251). -/
theorem State.coreInitialize_readMem (s : State) (a : Nat) :
    s.coreInitialize.readMem a = s.memory.initialByte a :=
  (Memory.read_of_cells_nil rfl a).trans (Memory.initialByte_congr rfl a)

/-! ### Loading an image -/

/-- An image that fits is loaded: its bytes are stored in ascending order and nothing else is written (R253). -/
theorem State.loadImage_of_fits {image : List Byte} (h : image.length ≤ Config.programMax) (s : State) :
    State.loadImage image s = .next { s with memory := s.memory.writeBytes Config.programBase.toNat image } :=
  if_pos h

theorem State.loadImage_of_tooLong {image : List Byte} (h : Config.programMax < image.length) (s : State) :
    State.loadImage image s = .refused .imageTooLong :=
  if_neg (Nat.not_le_of_lt h)

/-- Every read after the bytes of an image that fits: inside the image its byte, elsewhere what was there (R60, R253). -/
theorem Memory.read_writeBytes_image (m : Memory) {image : List Byte} (h : image.length ≤ Config.programMax) (a : Nat) :
    (m.writeBytes Config.programBase.toNat image).read a =
      if 0x200 ≤ a then image.getD (a - 0x200) (m.read a) else m.read a :=
  read_writeBytes image m 0x200 (Nat.add_le_add_left h 0x200) a

/-! ### The statements -/

/-- Settles O59: an image that fits ends inside memory, so its bytes are read where they were stored, and an address on
either side of it reads as before. -/
theorem loadPlacesTheImageOrRefuses : Obligations.LoadPlacesTheImageOrRefuses := by
  unfold Obligations.LoadPlacesTheImageOrRefuses
  refine fun image s => ⟨fun hfits => ?fits, fun hlong => State.loadImage_of_tooLong hlong s⟩
  have hread := s.memory.read_writeBytes_image hfits
  refine ⟨_, State.loadImage_of_fits hfits s, rfl, fun j hj => ?image, fun a ha => ?outside,
    Memory.writeBytes_wf image s.memory _⟩
  case image =>
    rw [State.readMem, hread, if_pos (Nat.le_add_right _ j), Nat.add_sub_cancel_left, List.getD_eq_getElem _ _ hj,
      List.getElem?_eq_getElem hj]
  case outside =>
    rw [State.readMem, hread]
    rcases ha with hbelow | habove
    · exact if_neg (Nat.not_le_of_lt hbelow)
    · have hpast : image.length ≤ a - 0x200 := Nat.le_sub_of_add_le' habove
      rw [List.getD_eq_default _ _ hpast, ite_self]
      rfl

/-- Settles O57: each component is the reset value written out, and a memory with no stored byte reads as its reset
content. -/
theorem initializeSetsEveryComponent : Obligations.InitializeSetsEveryComponent := by
  unfold Obligations.InitializeSetsEveryComponent
  refine fun s => ⟨fun r => ?registers, rfl, rfl, fun j hj => ?stack, rfl, rfl, rfl, rfl, fun k => ?keys,
    Framebuffer.lit_blank, rfl, fun d k => ?glyphs, fun a ha => ?others⟩
  case registers => exact Vector.getElem_replicate r.isLt
  case stack => exact Vector.getElem?_replicate_of_lt hj
  case keys => exact Vector.getElem_replicate k.isLt
  case glyphs => rw [State.coreInitialize_readMem, Memory.initialByte_glyph]
  case others => rw [State.coreInitialize_readMem, Memory.initialByte_of_outside _ ha]

/-- Settles O58: the `GLYPH_ROM` and the host's two fields are all that `initialize` takes over from the state before. -/
theorem resetIsTheInitializedCore : Obligations.ResetIsTheInitializedCore := by
  unfold Obligations.ResetIsTheInitializedCore
  intro s hrom
  rw [State.coreInitialize, hrom, State.reset]

end Sys2Proof.Machine
end
